-- ==== Sys2Proof/Word.lean ====
section
/-! DEFINITION. The word and byte types of 00_scope.md R8: a word is 32 unsigned bits, a byte 8. -/

namespace Sys2Proof

/-- The Glossary's Word: "a 32-bit unsigned integer, the core's native arithmetic unit" (R8, R12).
`BitVec` addition is addition modulo 2^32 (R9). -/
abbrev Word := BitVec 32

/-- A byte: an unsigned 8-bit value (R8). -/
abbrev Byte := BitVec 8

end Sys2Proof
end

