-- ==== Sys2Proof/Syntax.lean ====
section
/-! DEFINITION. The ten commands of 30_encoding.md R77, one constructor per row of spec/opcode_table.json. -/

namespace Sys2Proof

/-- A command with its operands (R73, R74, R81). Index operands are the unsigned numbers of R74;
`WellFormed.lean` gives their ranges. The data operand is the part of `din` the command reads (R76). -/
inductive Instr where
  /-- NOP (R211). -/
  | nop
  /-- INIT `v` (R212), with the VAR field `v = cmd[1:0]`: every value 0..3 is legal (R75). -/
  | init (v : BitVec 2)
  /-- WRB `i, b` (R213), with `b = din[7:0]`. -/
  | wrb (i : Nat) (b : Byte)
  /-- WRW `i, w` (R214), with `w = din[31:0]`. -/
  | wrw (i : Nat) (w : Word)
  /-- COMP (R215). -/
  | comp
  /-- RDB `i` (R216). -/
  | rdb (i : Nat)
  /-- RDH `j` (R217). -/
  | rdh (j : Nat)
  /-- RDD `j` (R218). -/
  | rdd (j : Nat)
  /-- RDS (R219). -/
  | rds
  /-- CLRERR (R220). -/
  | clrerr
  deriving DecidableEq, Repr

end Sys2Proof
end

