-- ==== Sys2Proof/WellFormed.lean ====
section
/-! DEFINITION. The operand ranges of 30_encoding.md R81 and R74. -/

namespace Sys2Proof

/-- The operands an encoding can hold (R73, R81): "An operand outside its range is an assembly error." -/
def wellFormed : Instr → Bool
  | .nop => true
  | .init _ => true
  | .wrb i _ => decide (i < 64)
  | .wrw i _ => decide (i < 16)
  | .comp => true
  | .rdb i => decide (i < 64)
  | .rdh j => decide (j < 8)
  | .rdd j => decide (j < 32)
  | .rds => true
  | .clrerr => true

end Sys2Proof
end

