-- ==== Sys2Proof/Decode.lean ====
section
/-! DEFINITION. Format C (30_encoding.md R72), the decoder (R73, R77, R78), the encoder and the opcode map. -/

namespace Sys2Proof

/-- The five fields of a format C command word (R72). -/
structure CmdFields where
  op : BitVec 4
  z1 : BitVec 6
  idx : BitVec 6
  z2 : BitVec 14
  var : BitVec 2
  deriving DecidableEq, Repr

/-- The fields of a command word: `OP[31:28]`, `Z1[27:22]`, `IDX[21:16]`, `Z2[15:2]`, `VAR[1:0]` (R72). -/
def splitFields (c : Word) : CmdFields where
  op := c.extractLsb' 28 4
  z1 := c.extractLsb' 22 6
  idx := c.extractLsb' 16 6
  z2 := c.extractLsb' 2 14
  var := c.extractLsb' 0 2

/-- The command word with these fields, most significant field first (R72). -/
def joinFields (f : CmdFields) : Word :=
  f.op ++ f.z1 ++ f.idx ++ f.z2 ++ f.var

/-- Why a word matches no row of R77, by the kinds R78 lists. The core records ILLEGAL_COMMAND for each of
them alike (R221); the names serve a reader only (log 5). -/
inductive DecodeError where
  /-- `OP` in 0xA..0xF. -/
  | reservedOpcode
  /-- A nonzero bit in `Z1`. -/
  | reservedZ1
  /-- A nonzero bit in `Z2`. -/
  | reservedZ2
  /-- A nonzero `VAR` in a command other than INIT. -/
  | reservedVar
  /-- A nonzero `IDX` bit that R73 says must be 0. -/
  | reservedIdx
  deriving DecidableEq, Repr

/-- The commands that use no `VAR` bits and only `IDX` values below `bound` (R73): the bits above are zero
exactly when the field is below it, since every bound is a power of two. -/
def indexed (f : CmdFields) (bound : Nat) (mk : Nat → Instr) : Except DecodeError Instr :=
  if f.var ≠ 0 then .error .reservedVar
  else if f.idx.toNat < bound then .ok (mk f.idx.toNat)
  else .error .reservedIdx

/-- The decoder, total on every pair of a command word and a data word (R71, R73, R76, R77, R78). A bound
of 1 in `indexed` says that `IDX` is unused and must be 0. -/
def decode (cmd din : Word) : Except DecodeError Instr :=
  let f := splitFields cmd
  if f.z1 ≠ 0 then .error .reservedZ1
  else if f.z2 ≠ 0 then .error .reservedZ2
  else match f.op.toNat with
    | 0 => indexed f 1 fun _ => .nop
    | 1 => if f.idx = 0 then .ok (.init f.var) else .error .reservedIdx
    | 2 => indexed f 64 fun i => .wrb i (din.extractLsb' 0 8)
    | 3 => indexed f 16 fun i => .wrw i din
    | 4 => indexed f 1 fun _ => .comp
    | 5 => indexed f 64 fun i => .rdb i
    | 6 => indexed f 8 fun j => .rdh j
    | 7 => indexed f 32 fun j => .rdd j
    | 8 => indexed f 1 fun _ => .rds
    | 9 => indexed f 1 fun _ => .clrerr
    | _ => .error .reservedOpcode

/-- The command word with this opcode, index and variant and zeros in `Z1` and `Z2` (R72). -/
def formatC (op : BitVec 4) (idx : Nat) (var : BitVec 2) : Word :=
  joinFields { op := op, z1 := 0, idx := BitVec.ofNat 6 idx, z2 := 0, var := var }

/-- The `(cmd, din)` pair the assembler writes for a well-formed command (R81). Commands whose `din` is
ignored are assembled with `din = 0`. -/
def encode : Instr → Word × Word
  | .nop => (formatC 0x0 0 0, 0)
  | .init v => (formatC 0x1 0 v, 0)
  | .wrb i b => (formatC 0x2 i 0, b.setWidth 32)
  | .wrw i w => (formatC 0x3 i 0, w)
  | .comp => (formatC 0x4 0 0, 0)
  | .rdb i => (formatC 0x5 i 0, 0)
  | .rdh j => (formatC 0x6 j 0, 0)
  | .rdd j => (formatC 0x7 j 0, 0)
  | .rds => (formatC 0x8 0 0, 0)
  | .clrerr => (formatC 0x9 0 0, 0)

/-- One row of the opcode map (R77): a word `c` selects the row when `c and mask = pattern`. -/
structure OpRow where
  mnemonic : String
  pattern : Word
  mask : Word
  deriving DecidableEq, Repr

/-- The row of R77 that a command belongs to. -/
def rowOf : Instr → OpRow
  | .nop => ⟨"NOP", 0x00000000, 0xFFFFFFFF⟩
  | .init _ => ⟨"INIT", 0x10000000, 0xFFFFFFFC⟩
  | .wrb _ _ => ⟨"WRB", 0x20000000, 0xFFC0FFFF⟩
  | .wrw _ _ => ⟨"WRW", 0x30000000, 0xFFF0FFFF⟩
  | .comp => ⟨"COMP", 0x40000000, 0xFFFFFFFF⟩
  | .rdb _ => ⟨"RDB", 0x50000000, 0xFFC0FFFF⟩
  | .rdh _ => ⟨"RDH", 0x60000000, 0xFFF8FFFF⟩
  | .rdd _ => ⟨"RDD", 0x70000000, 0xFFE0FFFF⟩
  | .rds => ⟨"RDS", 0x80000000, 0xFFFFFFFF⟩
  | .clrerr => ⟨"CLRERR", 0x90000000, 0xFFFFFFFF⟩

/-- The complete opcode map (R77), in the table's order. -/
def opcodeMap : List OpRow :=
  [rowOf .nop, rowOf (.init 0), rowOf (.wrb 0 0), rowOf (.wrw 0 0), rowOf .comp,
   rowOf (.rdb 0), rowOf (.rdh 0), rowOf (.rdd 0), rowOf .rds, rowOf .clrerr]

/-- Whether a command word selects a row (R77). -/
def OpRow.selects (r : OpRow) (c : Word) : Bool :=
  decide (c &&& r.mask = r.pattern)

/-- R78's list of the illegal words, read off the fields and R73's table. -/
def illegalWord (c : Word) : Bool :=
  let f := splitFields c
  decide (10 ≤ f.op.toNat) || f.z1 != 0 || f.z2 != 0 || (f.op != 1 && f.var != 0) ||
    (match f.op.toNat with
      | 2 => false
      | 3 => f.idx.extractLsb' 4 2 != 0
      | 5 => false
      | 6 => f.idx.extractLsb' 3 3 != 0
      | 7 => f.idx.extractLsb' 5 1 != 0
      | _ => f.idx != 0)

/-- The host's view of the decoder: bits 31..0 of `w` are the command word and bits 63..32 the data word, the
second word of every command (R71); bits at `nbits` and above are 0 (log 9). -/
def decodeTableWord (nbits w : Nat) : Option Instr :=
  let w := w % 2 ^ nbits
  match decode (BitVec.ofNat 32 w) (BitVec.ofNat 32 (w / 2 ^ 32)) with
  | .ok i => some i
  | .error _ => none

end Sys2Proof
end

