-- ==== Sys2Proof/Config.lean ====
section
/-! DEFINITION. The parameters of 00_scope.md R7: fixed values as constants, and the OPEN ones as opaque
constants that no definition of the model reads (log 16). -/

namespace Sys2Proof.Config

/-- BLOCK_BYTES (R7): the bytes of the block buffer. -/
@[simp] abbrev blockBytes : Nat := 64

/-- ROUNDS (R7). -/
@[simp] abbrev rounds : Nat := 64

/-- SCHEDULE_WORDS (R7). -/
@[simp] abbrev scheduleWords : Nat := 64

/-- STATE_WORDS (R7). -/
@[simp] abbrev stateWords : Nat := 8

/-- DIGEST_BYTES of SHA-224 (R7). -/
@[simp] abbrev sha224DigestBytes : Nat := 28

/-- DIGEST_BYTES of SHA-256 (R7). -/
@[simp] abbrev sha256DigestBytes : Nat := 32

/-- COMP_LATENCY less one (R7, R320, D19, OPEN): "any positive value"; no rule and no definition depends on it. -/
opaque compLatencyLessOne : Nat

/-- COMP_LATENCY (R320): the clock cycles from COMP's acceptance to `cmd_ready = 1`; positive by construction. -/
def compLatency : Nat := compLatencyLessOne + 1

/-- CE_BASE (R51, D2, OPEN): where a platform maps the command port, if it does. -/
opaque ceBase : Nat

/-- INSTANCES (R7, D22, OPEN): the number of cores on a platform. -/
opaque instances : Nat

end Sys2Proof.Config
end

