-- ==== Sys2Proof/Machine/State.lean ====
section
/-! DEFINITION. The state of one core (10_state.md R20), what the host drives on its port, the reasons a step
can stop, and the state after reset (R36). -/

namespace Sys2Proof.Machine

/-- The variant tag VAR (R23): "`VariantTag ∈ {Sha224, Sha256}`". -/
inductive Variant where
  /-- VAR = 0. -/
  | sha224
  /-- VAR = 1. -/
  | sha256
  deriving DecidableEq, Repr

/-- Eight words `a..h`: the chaining registers (`H[0]` is `a`, R22) or the working registers (`WK[0]` is `a`, R29). -/
structure Words8 where
  a : Word
  b : Word
  c : Word
  d : Word
  e : Word
  f : Word
  g : Word
  h : Word
  deriving DecidableEq, Repr

/-- The error names of R281. NONE is `ERR = 0` and is raised by nothing. -/
inductive CmdError where
  /-- Code 1, raised by INIT. -/
  | unsupportedVariant
  /-- Code 2, raised by an illegal word. -/
  | illegalCommand
  /-- Code 3, raised by RDD. -/
  | indexRange
  /-- Code 4, raised by COMP and RDD. -/
  | notInitialised
  deriving DecidableEq, Repr

/-- The inputs of one step: the input signals of the command port (R70), the arguments of R313's `Step`. -/
structure PortInput where
  rst : Bool
  cmdValid : Bool
  cmd : Word
  din : Word
  deriving DecidableEq, Repr

/-- The block buffer as data: the bytes that differ from what an unlisted address reads as, in rising order (log 7). -/
abbrev Memory := List Host.Cell

/-- The state of one core: the elements of R20, and `port`, the model's own (log 1). -/
structure State where
  /-- `H[0..7]`, the chaining state (R22). -/
  h : Words8
  /-- `VAR`, the variant tag (R23). -/
  var : Variant
  /-- `INITD`, the initialised flag (R24). -/
  initd : Bool
  /-- `ERR`, the 4-bit error code (R25, R281). -/
  err : BitVec 4
  /-- `DOUT`, the output register (R26). -/
  dout : Word
  /-- `BLK[0..63]`, the block buffer (R30). -/
  blk : Memory
  /-- `BUSY`, the engine-busy flag (R27). -/
  busy : Bool
  /-- `ROUND`, the 7-bit round counter (R28). -/
  round : BitVec 7
  /-- `WK[0..7]`, the working registers (R29). -/
  wk : Words8
  /-- What the host drives in the steps to come, the next step first; beyond its end the host drives
  nothing (DESIGN CHOICE, log 1). -/
  port : List PortInput
  deriving DecidableEq, Repr

/-- Why a step stops. No state that meets the invariant of Safety.lean raises any of them. -/
inductive Fault where
  /-- Raised by `topStep` in a state whose ERR is one of the reserved codes 5..15: "it should treat that state
  as a fault" (R281). Safe: no rule produces such a state (log 6). -/
  | reservedErrorCode
  /-- Raised by `topStep` when `BUSY = 1` and `ROUND > 64`, where no branch of R313 applies. Safe: R28 gives
  ROUND the values 0 to 64 (log 6). -/
  | roundOutOfRange
  /-- Raised by WRB, WRW and RDB with an operand outside R52's range. Safe: "An index outside the range cannot
  be encoded" (R52, log 8). -/
  | blockIndexOutOfRange
  /-- Raised by RDH with `j > 7`. Safe: its field has three bits (R74, log 8). -/
  | stateIndexOutOfRange
  deriving DecidableEq, Repr

/-- Why an instruction has no meaning. -/
inductive Refusal where
  /-- Raised by an arm of `exec` whose instruction has no meaning yet; no arm is so now. Safe. -/
  | notModelled (mnemonic : String)
  deriving DecidableEq, Repr

/-- Eight zero words. -/
def Words8.zero : Words8 := ⟨0, 0, 0, 0, 0, 0, 0, 0⟩

/-- The core right after reset (R36, log 22). The host drives nothing until a port input is given (log 2). -/
def State.reset : State where
  h := Words8.zero
  var := .sha224
  initd := false
  err := 0
  dout := 0
  blk := []
  busy := false
  round := 0
  wk := Words8.zero
  port := []

end Sys2Proof.Machine
end

