-- ==== Sys2Proof/Machine/Codec.lean ====
section
/-! DEFINITION. The 32-bit word codec and the bit primitives (40_word_codec.md R100 to R106). -/

namespace Sys2Proof.Machine

/-- `zext_32(b)` (R9): bits 31..8 are zero. -/
def zext32 (b : Byte) : Word := b.setWidth 32

/-- `bytesToWord` (R100): "big-endian reconstruction, `b0<<24 | b1<<16 | b2<<8 | b3`". -/
def bytesToWord (b0 b1 b2 b3 : Byte) : Word :=
  (zext32 b0 <<< 24) ||| (zext32 b1 <<< 16) ||| (zext32 b2 <<< 8) ||| zext32 b3

/-- Byte `k` of a word in big-endian order, `w[31-8k : 24-8k]` for `k` in 0..3 (R57, R102). -/
def byteOfWord (w : Word) (k : Nat) : Byte := w.extractLsb' (24 - 8 * k) 8

/-- `wordToBytes` (R102), byte 0 first. -/
def wordToBytes (w : Word) : Byte × Byte × Byte × Byte :=
  (byteOfWord w 0, byteOfWord w 1, byteOfWord w 2, byteOfWord w 3)

/-- `rotr(x, n)` (R101). Amounts of 32 and more rotate by `n mod 32`, as R101 suggests; no rule uses one
(DESIGN CHOICE, log 12). -/
def rotr (x : Word) (n : Nat) : Word :=
  (x >>> (n % 32)) ||| (x <<< (32 - n % 32))

/-- `x >> n`, the logical right shift (R104): zeros enter at bit 31. By 32 and more it gives 0 (DESIGN CHOICE, log 12);
no rule uses such an amount. -/
def shr (x : Word) (n : Nat) : Word := x >>> n

end Sys2Proof.Machine
end

