-- ==== Sys2Proof/Machine/Ops.lean ====
section
/-! DEFINITION. The named operations on registers and on the block buffer, the error-recording rule R282 with
the clearing beside it, and the reset action R310. -/

namespace Sys2Proof.Machine

/-! ### Registers: one update function per element of R20 -/

/-- `H <- v` (R22). -/
def State.setH (s : State) (v : Words8) : State := { s with h := v }
/-- `VAR <- v` (R23). -/
def State.setVar (s : State) (v : Variant) : State := { s with var := v }
/-- `INITD <- v` (R24). -/
def State.setInitd (s : State) (v : Bool) : State := { s with initd := v }
/-- `ERR <- v` (R25). -/
def State.setErr (s : State) (v : BitVec 4) : State := { s with err := v }
/-- `DOUT <- v` (R10, R26). -/
def State.setDout (s : State) (v : Word) : State := { s with dout := v }
/-- `BLK <- v` (R30). -/
def State.setBlk (s : State) (v : Memory) : State := { s with blk := v }
/-- `BUSY <- v` (R27). -/
def State.setBusy (s : State) (v : Bool) : State := { s with busy := v }
/-- `ROUND <- v` (R28). -/
def State.setRound (s : State) (v : BitVec 7) : State := { s with round := v }
/-- `WK <- v` (R29). -/
def State.setWk (s : State) (v : Words8) : State := { s with wk := v }
/-- What the host drives from the next step on (log 1). -/
def State.setPort (s : State) (v : List PortInput) : State := { s with port := v }

/-- Register `j` of eight, 0 to 7 (R22, R29). Callers keep `j` below 8. -/
def Words8.word (x : Words8) : Nat → Word
  | 0 => x.a
  | 1 => x.b
  | 2 => x.c
  | 3 => x.d
  | 4 => x.e
  | 5 => x.f
  | 6 => x.g
  | _ => x.h

/-- The port's output `cmd_ready = not BUSY` (R70, R312). -/
def State.cmdReady (s : State) : Bool := !s.busy

/-- The port's output `dout`, the value of DOUT at all times (R26, R70). -/
def State.doutBus (s : State) : Word := s.dout

/-! ### The block buffer (20_memory.md) -/

/-- What an unlisted byte of BLK reads as: its reset value 0x00 (R36). -/
def Memory.unlisted : Byte := 0

/-- `BLK[x]` (R10, R30). -/
def Memory.get : Memory → Nat → Byte
  | [], _ => Memory.unlisted
  | (a, b) :: m, x => if a = x then b else Memory.get m x

/-- `BLK[x] <- v` (R10, R30), keeping the canonical form of log 7. -/
def Memory.set : Memory → Nat → Byte → Memory
  | [], x, v => if v = Memory.unlisted then [] else [(x, v)]
  | (a, b) :: m, x, v =>
    if x < a then (if v = Memory.unlisted then (a, b) :: m else (x, v) :: (a, b) :: m)
    else if x = a then (if v = Memory.unlisted then m else (x, v) :: m)
    else (a, b) :: Memory.set m x v

/-- The canonical form from address `lo` on: addresses rising, inside the buffer, no byte that is unlisted anyway. -/
def Memory.wfFrom : Nat → Memory → Bool
  | _, [] => true
  | lo, (a, b) :: m =>
    decide (lo ≤ a) && decide (a < Config.blockBytes) && decide (b ≠ Memory.unlisted) && Memory.wfFrom (a + 1) m

/-- The canonical form of the block buffer (log 7). -/
def Memory.wf (m : Memory) : Bool := Memory.wfFrom 0 m

/-- The four bytes from `i` on as a big-endian word: `MemRead(i, 4)` (R52). -/
def Memory.word (m : Memory) (i : Nat) : Word :=
  bytesToWord (m.get i) (m.get (i + 1)) (m.get (i + 2)) (m.get (i + 3))

/-- The four bytes of `v` at `i`, most significant first: `MemWrite(i, 4, v)` (R53). -/
def Memory.setWord (m : Memory) (i : Nat) (v : Word) : Memory :=
  (((m.set i (byteOfWord v 0)).set (i + 1) (byteOfWord v 1)).set (i + 2) (byteOfWord v 2)).set (i + 3) (byteOfWord v 3)

/-- The buffer that holds these bytes from `BLK[i]` on, and whatever `m` holds elsewhere. -/
def Memory.setBytes : Memory → Nat → List Byte → Memory
  | m, _, [] => m
  | m, i, b :: bs => Memory.setBytes (m.set i b) (i + 1) bs

/-- `MemRead(i, 1)` (R52), in its range `i + 1 <= 64`. -/
def memRead1 (i : Nat) (s : State) : Except Fault Byte :=
  if i + 1 ≤ Config.blockBytes then .ok (s.blk.get i) else .error .blockIndexOutOfRange

/-- `MemRead(i, 4)` (R52), in its range `i + 4 <= 64`. -/
def memRead4 (i : Nat) (s : State) : Except Fault Word :=
  if i + 4 ≤ Config.blockBytes then .ok (s.blk.word i) else .error .blockIndexOutOfRange

/-- `MemWrite(i, 1, v)` (R53). -/
def memWrite1 (i : Nat) (v : Byte) (s : State) : Host.Outcome State Fault Refusal :=
  if i + 1 ≤ Config.blockBytes then .next (s.setBlk (s.blk.set i v)) else .fault .blockIndexOutOfRange

/-- `MemWrite(i, 4, v)` (R53), all four bytes in one step (R59). -/
def memWrite4 (i : Nat) (v : Word) (s : State) : Host.Outcome State Fault Refusal :=
  if i + 4 ≤ Config.blockBytes then .next (s.setBlk (s.blk.setWord i v)) else .fault .blockIndexOutOfRange

/-! ### Errors (60_exceptions.md): recorded, never trapped -/

/-- The codes of R281. -/
def CmdError.code : CmdError → BitVec 4
  | .unsupportedVariant => 1
  | .illegalCommand => 2
  | .indexRange => 3
  | .notInitialised => 4

/-- `raise CmdError(c)` (R282): "the first error since the last clear is kept". There is no trap entry (R287). -/
def raiseError (c : CmdError) (s : State) : State :=
  if s.err = 0 then s.setErr c.code else s

/-- `ERR <- 0`, the clearing of CLRERR and INIT (R25, R288). There is no trap return. -/
def clearError (s : State) : State := s.setErr 0

/-- ERR holds one of the codes 5..15 that no rule writes (R281). -/
abbrev reservedError (s : State) : Prop := 4 < s.err.toNat

/-! ### Reset (70_reset_and_hazards.md R310) -/

/-- The reset action (R310): every element of R20 takes its reset value of R36. What the host drives in later
steps is the host's and stays (log 3). -/
def resetAction (s : State) : State := State.reset.setPort s.port

end Sys2Proof.Machine
end

