-- ==== Sys2Proof/Machine/Flags.lean ====
section
/-! DEFINITION. The status fields (10_state.md R32, R33). The core has no condition codes (R34). -/

namespace Sys2Proof.Machine

/-- `DLEN`, the digest length in bytes (R33). -/
def dlen (s : State) : Nat :=
  if s.initd then
    match s.var with
    | .sha224 => Config.sha224DigestBytes
    | .sha256 => Config.sha256DigestBytes
  else 0

/-- The stored tag VAR as a bit (R23): 0 = SHA-224, 1 = SHA-256. -/
def Variant.bit : Variant → BitVec 1
  | .sha224 => 0
  | .sha256 => 1

/-- `STATUS = zext_32(DLEN[5:0] || ERR[3:0] || 0b00 || VAR || INITD)` (R32). -/
def status (s : State) : Word :=
  BitVec.setWidth 32 (BitVec.ofNat 6 (dlen s) ++ s.err ++ (0 : BitVec 2) ++ s.var.bit ++ BitVec.ofBool s.initd)

/-- The ERR field of a STATUS word, bits 7:4 (R32). -/
def statusErr (w : Word) : BitVec 4 := w.extractLsb' 4 4

/-- The DLEN field of a STATUS word, bits 13:8 (R32). -/
def statusDlen (w : Word) : BitVec 6 := w.extractLsb' 8 6

end Sys2Proof.Machine
end

