-- ==== Sys2Proof/Machine/Operands.lean ====
section
/-! DEFINITION. Operand forms: the scaled index of WRW (30_encoding.md R74) and the digest view (20_memory.md R57).
The index and data fields themselves are taken apart in Decode.lean (R73, R76). -/

namespace Sys2Proof.Machine

/-- The byte address of WRW's word index: "word `i` reaches bytes `4i .. 4i+3`" (R74). -/
def wordAddress (i : Nat) : Nat := 4 * i

/-- `DigestByte(j) = wordToBytes(H[j div 4])[j mod 4]` (R57). -/
def digestByte (h : Words8) (j : Nat) : Byte := byteOfWord (h.word (j / 4)) (j % 4)

end Sys2Proof.Machine
end

