-- ==== Sys2Proof/Machine/Block.lean ====
section
/-! DEFINITION. The block-buffer commands WRB, WRW and RDB (45_commands.md R213, R214, R216). -/

namespace Sys2Proof.Machine

/-- WRB `i, b` (R213): `BLK[i] <- din[7:0]`. -/
def execWrb (i : Nat) (b : Byte) (s : State) : Host.Outcome State Fault Refusal := memWrite1 i b s

/-- WRW `i, w` (R214): `MemWrite(4*i, 4, din)`. -/
def execWrw (i : Nat) (w : Word) (s : State) : Host.Outcome State Fault Refusal := memWrite4 (wordAddress i) w s

/-- RDB `i` (R216): `DOUT <- zext_32(MemRead(i, 1))`. -/
def execRdb (i : Nat) (s : State) : Host.Outcome State Fault Refusal :=
  match memRead1 i s with
  | .ok b => .next (s.setDout (zext32 b))
  | .error f => .fault f

end Sys2Proof.Machine
end

