-- ==== Sys2Proof/Machine/Schedule.lean ====
section
/-! DEFINITION. The message-schedule expander (41_schedule_expander.md R120 to R126) with its adder R196. -/

namespace Sys2Proof.Machine

/-- `σ0(x)` (R120). -/
def smallSigma0 (x : Word) : Word := rotr x 7 ^^^ rotr x 18 ^^^ shr x 3

/-- `σ1(x)` (R121). -/
def smallSigma1 (x : Word) : Word := rotr x 17 ^^^ rotr x 19 ^^^ shr x 10

/-- The schedule adder (R196): `W[t-16] + σ0(W[t-15]) + W[t-7] + σ1(W[t-2])`, its operands in that order. -/
def scheduleSum (w16 w15 w7 w2 : Word) : Word :=
  w16 + smallSigma0 w15 + w7 + smallSigma1 w2

/-- Words 0..15 of the schedule (R122): `W[t] = MemRead(4t, 4)`. -/
def blockWords (m : Memory) : List Word := (List.range 16).map fun t => m.word (4 * t)

/-- The words already made, followed by `n` more, each by R123's sum at `t = ` the number made so far. -/
def expandSchedule : Nat → List Word → List Word
  | 0, w => w
  | n + 1, w =>
    let t := w.length
    expandSchedule n
      (w ++ [scheduleSum (w.getD (t - 16) 0) (w.getD (t - 15) 0) (w.getD (t - 7) 0) (w.getD (t - 2) 0)])

/-- `Schedule(BLK)` (R123): 64 words, 16 from the block and 48 expanded. -/
@[irreducible] def schedule (m : Memory) : List Word := expandSchedule 48 (blockWords m)

/-- `W[t]` (R31, R123): a function of BLK at every moment, for `t` in 0..63. -/
def scheduleWord (m : Memory) (t : Nat) : Word := (schedule m).getD t 0

/-- One shift of the 16-word sliding window `SW[0..15]` (R125). -/
def shiftWindow (sw : List Word) : List Word :=
  sw.drop 1 ++ [scheduleSum (sw.getD 0 0) (sw.getD 1 0) (sw.getD 9 0) (sw.getD 14 0)]

/-- The window after `n` shifts: it starts with `W[0..15]` (R125). -/
def slidingWindow (m : Memory) : Nat → List Word
  | 0 => blockWords m
  | n + 1 => shiftWindow (slidingWindow m n)

end Sys2Proof.Machine
end

