-- ==== Sys2Proof/Machine/Engine.lean ====
section
/-! DEFINITION. The compression engine (43_compression_engine.md R160 to R174) and the adder tree
(44_adder_tree.md R190 to R195). -/

namespace Sys2Proof.Machine

/-- `Σ0(a)` (R160). -/
def bigSigma0 (a : Word) : Word := rotr a 2 ^^^ rotr a 13 ^^^ rotr a 22

/-- `Σ1(e)` (R161). -/
def bigSigma1 (e : Word) : Word := rotr e 6 ^^^ rotr e 11 ^^^ rotr e 25

/-- `Ch(e, f, g)` (R162). -/
def ch (e f g : Word) : Word := (e &&& f) ^^^ (~~~e &&& g)

/-- `Maj(a, b, c)` (R163). -/
def maj (a b c : Word) : Word := (a &&& b) ^^^ (a &&& c) ^^^ (b &&& c)

/-- The five-operand `T1` adder (R191). -/
def t1Sum (h sigma1 chosen k w : Word) : Word := h + sigma1 + chosen + k + w

/-- The two-operand `T2` adder (R192). -/
def t2Sum (sigma0 majority : Word) : Word := sigma0 + majority

/-- The new-a adder (R193). -/
def newA (t1 t2 : Word) : Word := t1 + t2

/-- The new-e adder (R194). -/
def newE (d t1 : Word) : Word := d + t1

/-- `Round(WK, k, w)` (R164): every right-hand side reads the words from before the round (R319). -/
def roundFn (x : Words8) (k w : Word) : Words8 :=
  let t1 := t1Sum x.h (bigSigma1 x.e) (ch x.e x.f x.g) k w
  let t2 := t2Sum (bigSigma0 x.a) (maj x.a x.b x.c)
  ⟨newA t1 t2, x.a, x.b, x.c, newE x.d t1, x.e, x.f, x.g⟩

/-- The state after the first `t` rounds on a schedule `w` (R165). -/
def roundsUpTo (hin : Words8) (w : List Word) : Nat → Words8
  | 0 => hin
  | t + 1 => roundFn (roundsUpTo hin w t) (kRom t) (w.getD t 0)

/-- `Rounds(Hin, BLK)` (R165): the 64 rounds. -/
@[irreducible] def rounds (hin : Words8) (m : Memory) : Words8 := roundsUpTo hin (schedule m) Config.rounds

/-- The feed-forward adders (R195): eight independent sums, no carry between words. -/
def feedForward (x y : Words8) : Words8 :=
  ⟨x.a + y.a, x.b + y.b, x.c + y.c, x.d + y.d, x.e + y.e, x.f + y.f, x.g + y.g, x.h + y.h⟩

/-- `Compress(Hin, BLK)` (R166), the feed-forward applied exactly once (C1). -/
def compress (hin : Words8) (m : Memory) : Words8 := feedForward hin (rounds hin m)

/-- Compression start (R170). H keeps the pre-block value, the snapshot. -/
def compressionStart (s : State) : State := ((s.setWk s.h).setRound 0).setBusy true

/-- Round step (R171), for `BUSY = 1` and `ROUND < 64`. -/
def roundStep (s : State) : State :=
  let t := s.round.toNat
  (s.setWk (roundFn s.wk (kRom t) (scheduleWord s.blk t))).setRound (s.round + 1)

/-- Feed-forward step (R172), for `BUSY = 1` and `ROUND = 64`. -/
def feedForwardStep (s : State) : State :=
  ((s.setH (feedForward s.h s.wk)).setRound 0).setBusy false

end Sys2Proof.Machine
end

