-- ==== Sys2Proof/Machine/Compute.lean ====
section
/-! DEFINITION. COMP (45_commands.md R215). Its engine steps are taken by `topStep` (R313). -/

namespace Sys2Proof.Machine

/-- COMP (R215): NOT_INITIALISED with no other effect if `INITD = 0`, else the compression start of R170. -/
def execComp (s : State) : Host.Outcome State Fault Refusal :=
  if s.initd then .next (compressionStart s) else .next (raiseError .notInitialised s)

end Sys2Proof.Machine
end

