-- ==== Sys2Proof/Machine/Control.lean ====
section
/-! DEFINITION. NOP, INIT, CLRERR and the illegal word (45_commands.md R211, R212, R220, R221). -/

namespace Sys2Proof.Machine

/-- NOP (R211): "nothing". -/
def execNop (s : State) : Host.Outcome State Fault Refusal := .next s

/-- The effect of a successful INIT: the IV of the variant, its tag, and `INITD <- 1` (R212). -/
def loadVariant (v : Variant) (s : State) : State := ((s.setH (ivOf v)).setVar v).setInitd true

/-- INIT `v` (R212): ERR is cleared first; an unsupported `v` clears INITD and then raises, H and VAR unchanged. -/
def execInit (v : BitVec 2) (s : State) : Host.Outcome State Fault Refusal :=
  if v = 0 then .next (loadVariant .sha224 (clearError s))
  else if v = 1 then .next (loadVariant .sha256 (clearError s))
  else .next (raiseError .unsupportedVariant ((clearError s).setInitd false))

/-- CLRERR (R220): `ERR <- 0`. -/
def execClrerr (s : State) : Host.Outcome State Fault Refusal := .next (clearError s)

/-- An illegal command word (R221): ILLEGAL_COMMAND is recorded and nothing else changes. -/
def execIllegal (s : State) : Host.Outcome State Fault Refusal := .next (raiseError .illegalCommand s)

end Sys2Proof.Machine
end

