-- ==== Sys2Proof/Machine/Readback.lean ====
section
/-! DEFINITION. The readback commands RDH, RDD and RDS (45_commands.md R217, R218, R219). -/

namespace Sys2Proof.Machine

/-- RDH `j` (R217): `DOUT <- H[j]`. -/
def execRdh (j : Nat) (s : State) : Host.Outcome State Fault Refusal :=
  if j < Config.stateWords then .next (s.setDout (s.h.word j)) else .fault .stateIndexOutOfRange

/-- RDD `j` (R218): the INITD check first, then the index (R284); a failing RDD writes 0 to DOUT. -/
def execRdd (j : Nat) (s : State) : Host.Outcome State Fault Refusal :=
  if s.initd = false then .next (raiseError .notInitialised (s.setDout 0))
  else if dlen s ≤ j then .next (raiseError .indexRange (s.setDout 0))
  else .next (s.setDout (zext32 (digestByte s.h j)))

/-- RDS (R219): `DOUT <- STATUS`. -/
def execRds (s : State) : Host.Outcome State Fault Refusal := .next (s.setDout (status s))

end Sys2Proof.Machine
end

