-- ==== Sys2Proof/Machine/Dispatch.lean ====
section
/-! DEFINITION. One arm per command (45_commands.md R210). -/

namespace Sys2Proof.Machine

def exec (i : Instr) (s : State) : Host.Outcome State Fault Refusal :=
  match i with
  | .nop => Sys2Proof.Machine.execNop s
  | .init v => Sys2Proof.Machine.execInit v s
  | .wrb k b => Sys2Proof.Machine.execWrb k b s
  | .wrw k w => Sys2Proof.Machine.execWrw k w s
  | .comp => Sys2Proof.Machine.execComp s
  | .rdb k => Sys2Proof.Machine.execRdb k s
  | .rdh j => Sys2Proof.Machine.execRdh j s
  | .rdd j => Sys2Proof.Machine.execRdd j s
  | .rds => Sys2Proof.Machine.execRds s
  | .clrerr => Sys2Proof.Machine.execClrerr s

end Sys2Proof.Machine
end

