-- ==== Sys2Proof/Machine/Execute.lean ====
section
/-! DEFINITION. Dispatch of an accepted pair (45_commands.md R210) and the top-level step as a function of the
state and the port inputs (70_reset_and_hazards.md R313). -/

namespace Sys2Proof.Machine

/-- `Execute(cmd, din)` (R210): the row's rule, or R221 for a word that matches no row. -/
def execute (cmd din : Word) (s : State) : Host.Outcome State Fault Refusal :=
  match decode cmd din with
  | .ok i => exec i s
  | .error _ => execIllegal s

/-- The port in a step at which the host drives nothing: `rst = 0` and `cmd_valid = 0`. -/
def PortInput.quiet : PortInput := { rst := false, cmdValid := false, cmd := 0, din := 0 }

/-- The port in a step at which the host offers a pair (R70). -/
def PortInput.offer (cmd din : Word) : PortInput := { rst := false, cmdValid := true, cmd := cmd, din := din }

/-- The port in a step at which the host resets the core (R310). -/
def PortInput.reset : PortInput := { rst := true, cmdValid := false, cmd := 0, din := 0 }

/-- The engine step that BUSY enables (R171, R172), always taken (log 4, log 21); no rule enables one above `ROUND = 64` (log 6). -/
def engineStep (s : State) : Host.Outcome State Fault Refusal :=
  if s.round.toNat < Config.rounds then .next (roundStep s)
  else if s.round.toNat = Config.rounds then .next (feedForwardStep s)
  else .fault .roundOutOfRange

/-- `Step(state, rst, cmd_valid, cmd, din)` (R313). Reset has precedence (R285); a state with a reserved ERR code
is a fault (R281, log 6). -/
def topStep (p : PortInput) (s : State) : Host.Outcome State Fault Refusal :=
  if p.rst then .next (resetAction s)
  else if reservedError s then .fault .reservedErrorCode
  else if s.busy then engineStep s
  else if p.cmdValid then execute p.cmd p.din s
  else .next s

/-- What the host drives on the port in this step: the head of `port`, or nothing (log 1). -/
def portNow (s : State) : PortInput := s.port.headD PortInput.quiet

/-- The state with this step's port input taken off (log 1). -/
def portTaken (s : State) : State := s.setPort s.port.tail

/-- The state in which the next step accepts the pair `(cmd, din)`: the pair is on the port first, and the
engine is idle (R311, log 17). -/
def acceptNext (cmd din : Word) (s : State) : State :=
  (s.setBusy false).setPort (PortInput.offer cmd din :: s.port)

end Sys2Proof.Machine
end

