-- ==== Sys2Proof/Machine/Step.lean ====
section
/-! DEFINITION. The step: R313's function applied to what the host drives in this step. -/

namespace Sys2Proof.Machine

/-- One step of the core (R313) with the port input of this step (log 1). -/
def step (s : State) : Host.Outcome State Fault Refusal := topStep (portNow s) (portTaken s)

/-- The state whose next step runs the instruction with bits `w`: command word in bits 31..0, data word in bits
63..32 (R71, log 9, log 17). -/
def State.withFetchWord (s : State) (nbits w : Nat) : State :=
  acceptNext (BitVec.ofNat 32 (w % 2 ^ nbits)) (BitVec.ofNat 32 (w % 2 ^ nbits / 2 ^ 32)) s

end Sys2Proof.Machine
end

