-- ==== Sys2Proof/Machine/Padder.lean ====
section
/-! DEFINITION. The host's padder (49_host_sequences.md R251 to R254) and the digest as a function of the message
(R257). Outside the core; specified by the spec as the host agent's part (R6, log 13). -/

namespace Sys2Proof.Machine

/-- The number `z` of zero bytes for a message of `len` bytes: `(55 - len) mod 64`, in 0..63 (R251). -/
def padZeros (len : Nat) : Nat := (119 - len % 64) % 64

/-- `BE64(n)` (R251): the eight bytes of a 64-bit number, most significant first. -/
def be64 (n : BitVec 64) : List Byte :=
  (List.range 8).map fun k => n.extractLsb' (56 - 8 * k) 8

/-- `Pad(m)` (R251); the length field wraps at exactly 2^64 (R253, log 20). -/
def pad (m : List Byte) : List Byte :=
  m ++ [0x80] ++ List.replicate (padZeros m.length) 0 ++ be64 (BitVec.ofNat 64 (8 * m.length))

/-- The first `n` blocks of a byte sequence: block `k` is bytes `64k .. 64k+63` (R254). -/
def splitBlocks : Nat → List Byte → List (List Byte)
  | 0, _ => []
  | n + 1, bs => bs.take Config.blockBytes :: splitBlocks n (bs.drop Config.blockBytes)

/-- The blocks of the padded message, earliest first (R254). -/
def blocksOf (m : List Byte) : List (List Byte) :=
  splitBlocks ((pad m).length / Config.blockBytes) (pad m)

/-- BLK when it holds the 64 bytes of a block. -/
def blockBuffer (x : List Byte) : Memory := Memory.setBytes [] 0 x

/-- The chaining value after these blocks, in order (R168, R257). -/
def chain (h : Words8) (bs : List (List Byte)) : Words8 :=
  bs.foldl (fun h x => compress h (blockBuffer x)) h

/-- The digest length of a variant (R33). -/
def digestLength : Variant → Nat
  | .sha224 => Config.sha224DigestBytes
  | .sha256 => Config.sha256DigestBytes

/-- The exported bytes of a chaining value: `DigestByte(0) .. DigestByte(DLEN-1)` (R257). -/
def exportDigest (v : Variant) (h : Words8) : List Byte :=
  (List.range (digestLength v)).map (digestByte h)

/-- The digest of a message (R257). -/
def digest (v : Variant) (m : List Byte) : List Byte := exportDigest v (chain (ivOf v) (blocksOf m))

end Sys2Proof.Machine
end

