-- ==== Sys2Proof/Machine/HostSequence.lean ====
section
/-! DEFINITION. The host agent: pseudo-instructions (30_encoding.md R82), the handshake duty (49_host_sequences.md
R250) and `computeDigest` as a command sequence (R255). Outside the core (R6, log 13). -/

namespace Sys2Proof.Machine

/-- `MemWord(x, i)` (R82): word `i` of 64 bytes. -/
def memWord (x : List Byte) (i : Nat) : Word :=
  bytesToWord (x.getD (4 * i) 0) (x.getD (4 * i + 1) 0) (x.getD (4 * i + 2) 0) (x.getD (4 * i + 3) 0)

/-- `LDBLK x` (R82): `WRW i, MemWord(x, i)` for `i = 0..15` in order. -/
def ldblk (x : List Byte) : List Instr := (List.range 16).map fun i => .wrw i (memWord x i)

/-- `BLOCK x` (R82). -/
def block (x : List Byte) : List Instr := ldblk x ++ [.comp]

/-- `RDDIG n` (R82). -/
def rddig (n : Nat) : List Instr := (List.range n).map .rdd

/-- `RDSTATE` (R82). -/
def rdstate : List Instr := (List.range Config.stateWords).map .rdh

/-- Offer a command until the step that accepts it, holding it while `cmd_ready = 0` (R250, R312), within `n`
steps; `none` if none of them accepts it or the core stops. -/
def issueWithin : Nat → Instr → State → Option State
  | 0, _, _ => none
  | n + 1, i, s =>
    match topStep (PortInput.offer (encode i).1 (encode i).2) s with
    | .next t => if s.cmdReady then some t else issueWithin n i t
    | .fault _ => none
    | .refused _ => none

/-- Issue one command: a running compression ends after at most 65 engine steps (R173, R174), and the step
after that accepts (log 18). -/
def issue (i : Instr) (s : State) : Option State := issueWithin (Config.rounds + 2) i s

/-- Issue commands one after another, each accepted before the next is offered (R250, R311). -/
def issueAll : List Instr → State → Option State
  | [], s => some s
  | i :: is, s => (issue i s).bind (issueAll is)

/-- Issue read commands, taking the low byte of `dout` after each (R255, R317). -/
def readBytes : List Instr → State → Option (List Byte × State)
  | [], s => some ([], s)
  | i :: is, s =>
    (issue i s).bind fun t =>
      (readBytes is t).map fun r => (t.doutBus.extractLsb' 0 8 :: r.1, r.2)

/-- What `computeDigest` returns (R255, R256). -/
inductive DigestResult where
  /-- `Ok(bytes)`. -/
  | ok (bytes : List Byte)
  /-- `Err(UnsupportedVariant)`. -/
  | unsupportedVariant
  /-- The last RDS shows `ERR != 0`, where R255 says that it must be 0 (DESIGN CHOICE, log 19). -/
  | errorRecorded
  deriving DecidableEq, Repr

/-- `computeDigest(m, v)` as the host's command sequence (R255), with the state it leaves. -/
def computeDigest (m : List Byte) (v : BitVec 2) (s : State) : Option (DigestResult × State) :=
  (issueAll [.init v, .rds] s).bind fun s1 =>
    if statusErr s1.doutBus = CmdError.unsupportedVariant.code then some (.unsupportedVariant, s1)
    else
      (issueAll ((blocksOf m).flatMap block) s1).bind fun s2 =>
        (readBytes (rddig (statusDlen s1.doutBus).toNat) s2).bind fun r =>
          (issue .rds r.2).map fun s4 =>
            (if statusErr s4.doutBus = 0 then .ok r.1 else .errorRecorded, s4)

end Sys2Proof.Machine
end

