-- ==== Sys2Proof/Machine/Assembler.lean ====
section
/-! DEFINITION. The assembler of 30_encoding.md R81 and R82: one command a line, operand ranges checked and never
wrapped, from characters to `(cmd, din)` pairs. Host software, outside the core (log 14). -/

namespace Sys2Proof.Machine

/-- A line's operands before their ranges are checked: commands, the raw `.cmd`, and the pseudo-instructions. -/
inductive AsmLine where
  /-- One of the ten mnemonics with its numeric operands. -/
  | command (mnemonic : List Char) (operands : List Nat)
  /-- `.cmd c, d` (R81). -/
  | raw (c d : Nat)
  /-- `LDBLK x` (R82). -/
  | ldblk (x : List Byte)
  /-- `BLOCK x` (R82). -/
  | block (x : List Byte)
  /-- `RDDIG n` (R82). -/
  | rddig (n : Nat)
  /-- `RDSTATE` (R82). -/
  | rdstate
  deriving DecidableEq, Repr

/-- The command with this mnemonic and these operands, if there is one and its data operand is in range (R81).
The index ranges are `wellFormed`'s. -/
def commandOf (mnemonic : List Char) (operands : List Nat) : Option Instr :=
  if mnemonic = "NOP".toList then (if operands = [] then some .nop else none)
  else if mnemonic = "INIT".toList then
    match operands with
    | [v] => if v < 4 then some (.init (BitVec.ofNat 2 v)) else none
    | _ => none
  else if mnemonic = "WRB".toList then
    match operands with
    | [i, b] => if b < 2 ^ 8 then some (.wrb i (BitVec.ofNat 8 b)) else none
    | _ => none
  else if mnemonic = "WRW".toList then
    match operands with
    | [i, w] => if w < 2 ^ 32 then some (.wrw i (BitVec.ofNat 32 w)) else none
    | _ => none
  else if mnemonic = "COMP".toList then (if operands = [] then some .comp else none)
  else if mnemonic = "RDB".toList then
    match operands with
    | [i] => some (.rdb i)
    | _ => none
  else if mnemonic = "RDH".toList then
    match operands with
    | [j] => some (.rdh j)
    | _ => none
  else if mnemonic = "RDD".toList then
    match operands with
    | [j] => some (.rdd j)
    | _ => none
  else if mnemonic = "RDS".toList then (if operands = [] then some .rds else none)
  else if mnemonic = "CLRERR".toList then (if operands = [] then some .clrerr else none)
  else none

/-- The pair of a command, or an assembly error: "An operand outside its range is an assembly error. The
assembler never wraps it" (R81). -/
def assembleInstr (i : Instr) : Option (Word × Word) :=
  if wellFormed i then some (encode i) else none

/-- The pairs of a line (R81, R82), or an assembly error. -/
def assembleLine : AsmLine → Option (List (Word × Word))
  | .command m ops => (commandOf m ops).bind fun i => (assembleInstr i).map fun p => [p]
  | .raw c d =>
    if c < 2 ^ 32 ∧ d < 2 ^ 32 then some [(BitVec.ofNat 32 c, BitVec.ofNat 32 d)] else none
  | .ldblk x => if x.length = Config.blockBytes then some ((ldblk x).map encode) else none
  | .block x => if x.length = Config.blockBytes then some ((block x).map encode) else none
  | .rddig n =>
    if n = Config.sha224DigestBytes ∨ n = Config.sha256DigestBytes then some ((rddig n).map encode) else none
  | .rdstate => some (rdstate.map encode)

/-! ### From characters to a line -/

/-- The value of a digit in some base up to 16, either case (DESIGN CHOICE, log 14). -/
def digitValue (c : Char) : Option Nat :=
  if '0'.toNat ≤ c.toNat ∧ c.toNat ≤ '9'.toNat then some (c.toNat - '0'.toNat)
  else if 'A'.toNat ≤ c.toNat ∧ c.toNat ≤ 'F'.toNat then some (c.toNat - 'A'.toNat + 10)
  else if 'a'.toNat ≤ c.toNat ∧ c.toNat ≤ 'f'.toNat then some (c.toNat - 'a'.toNat + 10)
  else none

/-- Digits read onto the number so far, each below the base. -/
def digitsFrom (base : Nat) : Nat → List Char → Option Nat
  | acc, [] => some acc
  | acc, c :: cs =>
    match digitValue c with
    | some d => if d < base then digitsFrom base (acc * base + d) cs else none
    | none => none

/-- "Numbers are decimal, or hexadecimal with a `0x` prefix" (R81). -/
def parseNumber : List Char → Option Nat
  | '0' :: 'x' :: c :: cs => digitsFrom 16 0 (c :: cs)
  | c :: cs => digitsFrom 10 0 (c :: cs)
  | [] => none

/-- Bytes written as pairs of hexadecimal digits (R82). -/
def parseBytes : List Char → Option (List Byte)
  | [] => some []
  | [_] => none
  | c :: d :: cs =>
    match digitsFrom 16 0 [c, d], parseBytes cs with
    | some n, some bs => some (BitVec.ofNat 8 n :: bs)
    | _, _ => none

/-- White space, as far as a line can hold it (DESIGN CHOICE, log 14). -/
def isBlank (c : Char) : Bool := c = ' ' || c = '\t' || c = '\r'

/-- The characters without the white space around them. -/
def trim (cs : List Char) : List Char := ((cs.dropWhile isBlank).reverse.dropWhile isBlank).reverse

/-- The pieces between the commas. -/
def splitCommas : List Char → List (List Char)
  | [] => [[]]
  | c :: cs =>
    match splitCommas cs with
    | [] => [[c]]
    | p :: ps => if c = ',' then [] :: p :: ps else (c :: p) :: ps

/-- The operands of a line: none, or numbers "separated by commas" (R81). `sha224` and `sha256` are INIT's names
for 0 and 1. -/
def parseOperands (cs : List Char) : Option (List Nat) :=
  if trim cs = [] then some []
  else ((splitCommas cs).map trim).mapM parseNumber

/-- One line of assembly (R81, R82): `none` is an assembly error, `some none` a line with no command. -/
def parseLine (line : List Char) : Option (Option AsmLine) :=
  let code := trim (line.takeWhile (· ≠ ';'))
  let name := code.takeWhile fun c => !isBlank c
  let rest := trim (code.drop name.length)
  if code = [] then some none
  else if name = ".cmd".toList then
    match parseOperands rest with
    | some [c, d] => some (some (.raw c d))
    | _ => none
  else if name = "LDBLK".toList then (parseBytes rest).map fun x => some (.ldblk x)
  else if name = "BLOCK".toList then (parseBytes rest).map fun x => some (.block x)
  else if name = "RDDIG".toList then (parseNumber rest).map fun n => some (.rddig n)
  else if name = "RDSTATE".toList then (if rest = [] then some (some .rdstate) else none)
  else if name = "INIT".toList ∧ rest = "sha224".toList then some (some (.command name [0]))
  else if name = "INIT".toList ∧ rest = "sha256".toList then some (some (.command name [1]))
  else (parseOperands rest).map fun ops => some (.command name ops)

/-- One line of assembly to the pairs it stands for, or an assembly error. -/
def assembleText (line : List Char) : Option (List (Word × Word)) :=
  (parseLine line).bind fun l =>
    match l with
    | some a => assembleLine a
    | none => some []

/-- A program: its lines in order; one error makes the whole an error. -/
def assembleProgram : List (List Char) → Option (List (Word × Word))
  | [] => some []
  | l :: ls =>
    match assembleText l, assembleProgram ls with
    | some p, some q => some (p ++ q)
    | _, _ => none

end Sys2Proof.Machine
end

