-- ==== Sys2Proof/Machine/Platform.lean ====
section
/-! DEFINITION. A platform of several cores (10_state.md R37, 60_exceptions.md R293): each has its own copy of every
element and its own port, and no signal goes from one to another (log 15). -/

namespace Sys2Proof.Machine

/-- The cores of a platform, each with its own state and port (R37). -/
abbrev Platform := List State

/-- A step of core `k`: that core steps, the others keep their state. A platform with no core `k` does not change. -/
def platformStep (k : Nat) (p : Platform) : Host.Outcome Platform Fault Refusal :=
  match p[k]? with
  | none => .next p
  | some s =>
    match step s with
    | .next t => .next (p.set k t)
    | .fault f => .fault f
    | .refused r => .refused r

end Sys2Proof.Machine
end

