-- ==== Sys2Proof/Safety.lean ====
section
/-! DEFINITION. What counts as a safe state, and the words the statements are written in. -/

namespace Sys2Proof.Machine

/-- The control invariant: the block buffer is in its canonical form; ERR holds a code of R281; ROUND is in 0..64
(R28) and 0 while idle (R28, R170, R172); BUSY is only ever 1 with INITD = 1 (R312). -/
structure Inv (s : State) : Prop where
  blk_wf : Memory.wf s.blk = true
  err_le : s.err.toNat ≤ 4
  round_le : s.round.toNat ≤ 64
  idle_round : s.busy = false → s.round = 0
  busy_initd : s.busy = true → s.initd = true

/-- The data invariant of the engine: while BUSY = 1, WK holds what R165's rounds give after ROUND rounds on the
snapshot H (R22) and the block BLK (R30). -/
def EngineInv (s : State) : Prop :=
  s.busy = true → s.wk = roundsUpTo s.h (schedule s.blk) s.round.toNat

/-- `n` steps of the machine, stopping at the first that is not a next state: `core.run`, typed over `State`. -/
def runSteps (n : Nat) (s : State) : Host.Outcome State Fault Refusal := core.run n s

/-- The host drives no reset in the first `n` steps to come. -/
def noReset (n : Nat) (s : State) : Bool := (s.port.take n).all fun p => !p.rst

/-- The command this step accepts (R311): `rst = 0`, `cmd_valid = 1`, `cmd_ready = 1` and a legal word. -/
def accepts (s : State) (i : Instr) : Prop :=
  (portNow s).rst = false ∧ (portNow s).cmdValid = true ∧ s.busy = false ∧
    decode (portNow s).cmd (portNow s).din = .ok i

/-- The step is a reset step (R310). -/
def resets (s : State) : Prop := (portNow s).rst = true

/-- The step is a feed-forward step (R172). -/
def feedsForward (s : State) : Prop := (portNow s).rst = false ∧ s.busy = true ∧ s.round = 64

/-- Two states agree on the engine's own elements BUSY, ROUND and WK. -/
def SameEngine (s t : State) : Prop := t.busy = s.busy ∧ t.round = s.round ∧ t.wk = s.wk

/-- Two states agree on H, VAR and INITD. -/
def SameChaining (s t : State) : Prop := t.h = s.h ∧ t.var = s.var ∧ t.initd = s.initd

/-- Every byte of BLK reads the same in two states. -/
def SameBlock (s t : State) : Prop := ∀ a : Nat, t.blk.get a = s.blk.get a

end Sys2Proof.Machine
end

