-- ==== Sys2Proof/Certificates/Slice0/Obligations.lean ====
section
/-! DEFINITION. The statements for the provers. Each docstring names the rule of spec/ it formalises. `t` and `u`
are states after a step; "read of one byte" is `Memory.get`. The field `port` is the model's own (log 1): what happens
to it is said once, in `PortInputsGoByOneAStep`. -/

open Sys2Proof Sys2Proof.Machine

/-! ### Encoding -/

/-- R72, R73, R77, R81: decoding an encoded well-formed command gives it back, with every operand. -/
def Obligations.DecodeEncodeAgree : Prop :=
  ∀ i : Instr, wellFormed i = true → decode (encode i).1 (encode i).2 = .ok i

/-- R72, R76, R79, R81: a decoded word is well formed and is the only word of its command; of `din`, exactly the bits
the command reads are kept. -/
def Obligations.DecodedWordReencodes : Prop :=
  ∀ (c d : Word) (i : Instr), decode c d = .ok i →
    wellFormed i = true ∧ (encode i).1 = c ∧
      (encode i).2 = match i with
        | .wrb _ _ => d &&& 0x000000FF
        | .wrw _ _ => d
        | _ => 0

/-- R77: the opcode map, as a table of words; a word decodes to a command exactly when it selects that command's row,
and at most one row matches any word. -/
def Obligations.OpcodeMapDecides : Prop :=
  opcodeMap =
    [⟨"NOP", 0x00000000, 0xFFFFFFFF⟩, ⟨"INIT", 0x10000000, 0xFFFFFFFC⟩, ⟨"WRB", 0x20000000, 0xFFC0FFFF⟩,
     ⟨"WRW", 0x30000000, 0xFFF0FFFF⟩, ⟨"COMP", 0x40000000, 0xFFFFFFFF⟩, ⟨"RDB", 0x50000000, 0xFFC0FFFF⟩,
     ⟨"RDH", 0x60000000, 0xFFF8FFFF⟩, ⟨"RDD", 0x70000000, 0xFFE0FFFF⟩, ⟨"RDS", 0x80000000, 0xFFFFFFFF⟩,
     ⟨"CLRERR", 0x90000000, 0xFFFFFFFF⟩] ∧
  (∀ (c d : Word) (i : Instr), decode c d = .ok i → rowOf i ∈ opcodeMap ∧ c &&& (rowOf i).mask = (rowOf i).pattern) ∧
  (∀ (c d : Word) (r : OpRow), r ∈ opcodeMap → c &&& r.mask = r.pattern → ∃ i, decode c d = .ok i ∧ rowOf i = r) ∧
  (∀ (c : Word) (r r' : OpRow), r ∈ opcodeMap → r' ∈ opcodeMap →
    c &&& r.mask = r.pattern → c &&& r'.mask = r'.pattern → r = r')

/-- R76: `din` is read only by WRB, its low byte, and by WRW; whatever its other bits are, execution is the same. -/
def Obligations.DataBusReadOnlyByWrites : Prop :=
  (∀ (c d d' : Word) (s : State), (splitFields c).op ≠ 2 → (splitFields c).op ≠ 3 →
    execute c d s = execute c d' s) ∧
  (∀ (c d d' : Word) (s : State), (splitFields c).op = 2 → d.extractLsb' 0 8 = d'.extractLsb' 0 8 →
    execute c d s = execute c d' s)

/-- R78, R221: the illegal words are those R78 lists; an illegal word records ILLEGAL_COMMAND, if ERR was 0, and
changes nothing else. -/
def Obligations.IllegalWordsRecordIllegalCommand : Prop :=
  ∀ (c d : Word) (s : State),
    ((∃ e, decode c d = .error e) ↔
      (10 ≤ (c.extractLsb' 28 4).toNat ∨ c.extractLsb' 22 6 ≠ 0 ∨ c.extractLsb' 2 14 ≠ 0 ∨
        (c.extractLsb' 28 4 ≠ 1 ∧ c.extractLsb' 0 2 ≠ 0) ∨
        (c.extractLsb' 28 4 ∈ [0, 1, 4, 8, 9] ∧ c.extractLsb' 16 6 ≠ 0) ∨
        (c.extractLsb' 28 4 = 3 ∧ c.extractLsb' 20 2 ≠ 0) ∨
        (c.extractLsb' 28 4 = 6 ∧ c.extractLsb' 19 3 ≠ 0) ∨
        (c.extractLsb' 28 4 = 7 ∧ c.extractLsb' 21 1 ≠ 0))) ∧
    ((∃ e, decode c d = .error e) →
      ∃ t, execute c d s = .next t ∧ t.err = (if s.err = 0 then 2 else s.err) ∧
        SameChaining s t ∧ SameEngine s t ∧ SameBlock s t ∧ t.dout = s.dout)

/-- R83: the encoding examples, encoded and decoded. -/
def Obligations.EncodingExamplesDecode : Prop :=
  encode (.init 1) = (0x10000001, 0) ∧ encode (.init 2) = (0x10000002, 0) ∧
  encode (.wrw 15 0x00000018) = (0x300F0000, 0x00000018) ∧ encode (.wrb 63 0x80) = (0x203F0000, 0x00000080) ∧
  encode (.rdh 7) = (0x60070000, 0) ∧ encode (.rdd 31) = (0x701F0000, 0) ∧
  decode 0x10000001 0 = .ok (.init 1) ∧
  decode 0x10000002 0 = .ok (.init 2) ∧
  (∀ s, ∃ t, exec (.init 2) s = .next t ∧ t.err = 1) ∧
  decode 0x300F0000 0x00000018 = .ok (.wrw 15 0x00000018) ∧
  decode 0x203F0000 0x00000080 = .ok (.wrb 63 0x80) ∧
  decode 0x60070000 0 = .ok (.rdh 7) ∧
  decode 0x701F0000 0 = .ok (.rdd 31) ∧
  decode 0x30100000 0 = .error .reservedIdx ∧
  decode 0x60080000 0 = .error .reservedIdx ∧
  decode 0x40000001 0 = .error .reservedVar ∧
  decode 0xA0000000 0 = .error .reservedOpcode

/-! ### The step -/

/-- R210, R311, R313: a step that accepts a legal word is `exec` of the decoded command at the state with this step's
port input taken off; the port field and its order are the model's choice (log 1). -/
def Obligations.StepRunsAcceptedCommand : Prop :=
  ∀ (s : State) (p : PortInput) (rest : List PortInput) (i : Instr),
    s.port = p :: rest → p.rst = false → p.cmdValid = true → s.busy = false → s.err.toNat ≤ 4 →
    decode p.cmd p.din = .ok i → step s = exec i { s with port := rest }

/-- R210, R221, R313: a step that accepts an illegal word records ILLEGAL_COMMAND and goes on. -/
def Obligations.StepRecordsIllegalWord : Prop :=
  ∀ (s : State) (p : PortInput) (rest : List PortInput) (e : DecodeError),
    s.port = p :: rest → p.rst = false → p.cmdValid = true → s.busy = false → s.err.toNat ≤ 4 →
    decode p.cmd p.din = .error e →
    step s = .next { s with err := if s.err = 0 then 2 else s.err, port := rest }

/-- The model's own field (log 1): a command leaves the port inputs to come alone; a step is R313's `Step` with the
first of them, or with a quiet port when none is left, and takes exactly that one off. -/
def Obligations.PortInputsGoByOneAStep : Prop :=
  (∀ (i : Instr) (s t : State), exec i s = .next t → t.port = s.port) ∧
  (∀ (p : PortInput) (rest : List PortInput) (s : State), s.port = p :: rest →
    step s = topStep p { s with port := rest }) ∧
  (∀ s : State, s.port = [] → step s = topStep { rst := false, cmdValid := false, cmd := 0, din := 0 } s) ∧
  (∀ s t : State, step s = .next t → t.port = s.port.tail)

/-- R314: any number of idle steps changes nothing but the port inputs that have gone by. -/
def Obligations.IdleStepsChangeNothing : Prop :=
  ∀ (n : Nat) (s : State), s.busy = false → s.err.toNat ≤ 4 →
    (∀ p ∈ s.port.take n, p.rst = false ∧ p.cmdValid = false) →
    runSteps n s = .next { s with port := s.port.drop n }

/-- R310: reset held for one step or more, busy or not, whatever the host offers, sets every element of R20 to its
reset value; the core is then idle and uninitialised, `cmd_ready = 1`, and STATUS is 0. -/
def Obligations.ResetSetsEveryElement : Prop :=
  ∀ (n : Nat) (s : State), n < s.port.length → (∀ p ∈ s.port.take (n + 1), p.rst = true) →
    ∃ t, runSteps (n + 1) s = .next t ∧
      t.h = ⟨0, 0, 0, 0, 0, 0, 0, 0⟩ ∧ t.wk = ⟨0, 0, 0, 0, 0, 0, 0, 0⟩ ∧ t.dout = 0 ∧ (∀ a, t.blk.get a = 0) ∧
      t.var = .sha224 ∧ t.initd = false ∧ t.busy = false ∧ t.round = 0 ∧ t.err = 0 ∧
      t.port = s.port.drop (n + 1) ∧ t.cmdReady = true ∧ status t = 0

/-- R36: the reset value of every element. -/
def Obligations.ResetStateValues : Prop :=
  State.reset.h = ⟨0x00000000, 0x00000000, 0x00000000, 0x00000000, 0x00000000, 0x00000000, 0x00000000, 0x00000000⟩ ∧
  State.reset.var.bit = 0 ∧ State.reset.initd = false ∧ State.reset.err = 0 ∧ State.reset.dout = 0x00000000 ∧
  (∀ a, State.reset.blk.get a = 0x00) ∧ State.reset.busy = false ∧ State.reset.round = 0 ∧
  State.reset.wk = ⟨0x00000000, 0x00000000, 0x00000000, 0x00000000, 0x00000000, 0x00000000, 0x00000000, 0x00000000⟩ ∧
  status State.reset = 0x00000000

/-! ### Invariants and safety -/

/-- The invariants hold at reset (R36). -/
def Obligations.InvariantsHoldAtReset : Prop :=
  Inv State.reset ∧ EngineInv State.reset

/-- R28, R281, R312: every step from a state that meets the control invariant gives a state that meets it. -/
def Obligations.StepKeepsControlInvariant : Prop :=
  ∀ s t : State, Inv s → step s = .next t → Inv t

/-- R22, R29, R30, R165: every step keeps "while BUSY = 1, WK is what ROUND rounds give on the snapshot H and BLK". -/
def Obligations.StepKeepsEngineInvariant : Prop :=
  ∀ s t : State, Inv s → EngineInv s → step s = .next t → EngineInv t

/-- R174, R283, R313: a core that meets the control invariant never stops, whatever the host drives. -/
def Obligations.CoreNeverStops : Prop :=
  ∀ s : State, Inv s → ∃ t, step s = .next t

/-- R52, R74, R283: every command a word can decode to completes in every state. Of the indexes no word encodes, those of
WRB, WRW, RDB and RDH stop by name; RDD's, which R218's `j >= DLEN` covers, record an error and write 0 to DOUT (the
model's choice, log 8). -/
def Obligations.CommandsCompleteAndUnencodableStop : Prop :=
  (∀ (c d : Word) (i : Instr) (s : State), decode c d = .ok i → ∃ t, exec i s = .next t) ∧
  (∀ (i : Nat) (b : Byte) (s : State), 64 ≤ i → exec (.wrb i b) s = .fault .blockIndexOutOfRange) ∧
  (∀ (i : Nat) (w : Word) (s : State), 16 ≤ i → exec (.wrw i w) s = .fault .blockIndexOutOfRange) ∧
  (∀ (i : Nat) (s : State), 64 ≤ i → exec (.rdb i) s = .fault .blockIndexOutOfRange) ∧
  (∀ (j : Nat) (s : State), 8 ≤ j → exec (.rdh j) s = .fault .stateIndexOutOfRange) ∧
  (∀ (j : Nat) (s : State), 32 ≤ j → ∃ t, exec (.rdd j) s = .next t ∧ t.dout = 0 ∧
    t.err = (if s.err ≠ 0 then s.err else if s.initd = false then 4 else 3) ∧
    SameChaining s t ∧ SameBlock s t ∧ SameEngine s t)

/-- R281, R313: without reset, a reserved ERR code is a fault; so is BUSY = 1 with ROUND above 64, for which R313 has
no branch (the model's choice, log 6). -/
def Obligations.UnreachableStatesFault : Prop :=
  ∀ s : State, (portNow s).rst = false →
    (4 < s.err.toNat → step s = .fault .reservedErrorCode) ∧
    (s.err.toNat ≤ 4 → s.busy = true → 64 < s.round.toNat → step s = .fault .roundOutOfRange)

/-! ### One statement per command -/

/-- R211: NOP is the word 0 exactly, ignores `din` and changes nothing. -/
def Obligations.NopChangesNothing : Prop :=
  ∀ (c d : Word) (s : State), (decode c d = .ok .nop ↔ c = 0x00000000) ∧ exec .nop s = .next s

/-- R212: INIT, its encoding, its result for each variant value, and its frame. -/
def Obligations.InitLoadsVariant : Prop :=
  ∀ (v : BitVec 2) (d : Word) (s : State),
    decode ((0x10000000 : Word) ||| v.setWidth 32) d = .ok (.init v) ∧
    ∃ t, exec (.init v) s = .next t ∧
      (v = 0 → t.h = ⟨0xC1059ED8, 0x367CD507, 0x3070DD17, 0xF70E5939, 0xFFC00B31, 0x68581511, 0x64F98FA7, 0xBEFA4FA4⟩ ∧
        t.var = .sha224 ∧ t.initd = true ∧ t.err = 0 ∧ status t = 0x00001C01) ∧
      (v = 1 → t.h = ⟨0x6A09E667, 0xBB67AE85, 0x3C6EF372, 0xA54FF53A, 0x510E527F, 0x9B05688C, 0x1F83D9AB, 0x5BE0CD19⟩ ∧
        t.var = .sha256 ∧ t.initd = true ∧ t.err = 0 ∧ status t = 0x00002003) ∧
      (v = 2 ∨ v = 3 → t.h = s.h ∧ t.var = s.var ∧ t.initd = false ∧ t.err = 1 ∧
        status t = (if s.var = .sha224 then 0x00000010 else 0x00000012)) ∧
      t.dout = s.dout ∧ SameBlock s t ∧ SameEngine s t

/-- R213: WRB stores `din[7:0]` at byte `i` and changes nothing else; of the schedule word that byte lies in, only the
byte's bits change. -/
def Obligations.WrbStoresOneByte : Prop :=
  ∀ (i : Nat) (d : Word) (s : State), i < 64 → Memory.wf s.blk = true →
    decode ((0x20000000 : Word) ||| (BitVec.ofNat 32 i <<< 16)) d = .ok (.wrb i (d.extractLsb' 0 8)) ∧
    ∃ t, exec (.wrb i (d.extractLsb' 0 8)) s = .next t ∧
      t.blk.get i = d.extractLsb' 0 8 ∧ (∀ a, a ≠ i → t.blk.get a = s.blk.get a) ∧
      (∀ m, m < 4 → (scheduleWord t.blk (i / 4)).extractLsb' (24 - 8 * m) 8 =
        if m = i % 4 then d.extractLsb' 0 8 else (scheduleWord s.blk (i / 4)).extractLsb' (24 - 8 * m) 8) ∧
      SameChaining s t ∧ SameEngine s t ∧ t.err = s.err ∧ t.dout = s.dout

/-- R214: WRW stores the four bytes of `din`, most significant first, at the address its word index gives, changes
nothing else, and makes schedule word `i` equal to `din`; with `cmd[21:20]` set the word is illegal. -/
def Obligations.WrwStoresFourBytes : Prop :=
  ∀ (i : Nat) (d : Word) (s : State), i < 16 → Memory.wf s.blk = true →
    decode ((0x30000000 : Word) ||| (BitVec.ofNat 32 i <<< 16)) d = .ok (.wrw i d) ∧
    (∀ c : Word, c.extractLsb' 28 4 = 3 → c.extractLsb' 20 2 ≠ 0 → ∃ e, decode c d = .error e) ∧
    wordAddress i = 4 * i ∧
    ∃ t, exec (.wrw i d) s = .next t ∧
      t.blk.get (wordAddress i) = d.extractLsb' 24 8 ∧ t.blk.get (wordAddress i + 1) = d.extractLsb' 16 8 ∧
      t.blk.get (wordAddress i + 2) = d.extractLsb' 8 8 ∧ t.blk.get (wordAddress i + 3) = d.extractLsb' 0 8 ∧
      (∀ a, a < wordAddress i ∨ wordAddress i + 4 ≤ a → t.blk.get a = s.blk.get a) ∧
      scheduleWord t.blk i = d ∧
      SameChaining s t ∧ SameEngine s t ∧ t.err = s.err ∧ t.dout = s.dout

/-- R170: COMP with INITD = 1 loads WK from H, sets ROUND to 0 and BUSY to 1, and writes nothing else. -/
def Obligations.CompStartsCompression : Prop :=
  ∀ s : State, s.initd = true →
    ∃ t, exec .comp s = .next t ∧ t.wk = s.h ∧ t.round = 0 ∧ t.busy = true ∧
      SameChaining s t ∧ SameBlock s t ∧ t.err = s.err ∧ t.dout = s.dout

/-- R215: COMP is the word 0x40000000 exactly; with INITD = 0 it records NOT_INITIALISED, if ERR was 0, and has no
other effect; with INITD = 1, whatever ERR and VAR are, its net effect after the engine steps is
`H <- Compress(H, BLK)`, BLK and the status fields unchanged. -/
def Obligations.CompNetEffect : Prop :=
  (∀ c d : Word, decode c d = .ok .comp ↔ c = 0x40000000) ∧
  (∀ s : State, s.initd = false →
    exec .comp s = .next { s with err := if s.err = 0 then 4 else s.err }) ∧
  (∀ s t : State, s.initd = true → s.err.toNat ≤ 4 → noReset 65 s = true → exec .comp s = .next t →
    ∃ u, runSteps 65 t = .next u ∧ u.h = compress s.h s.blk ∧ u.var = s.var ∧ u.initd = s.initd ∧ u.err = s.err ∧
      SameBlock s u ∧ u.busy = false)

/-- R216: RDB reads one byte of BLK, zero-extended, into DOUT and changes nothing else. -/
def Obligations.RdbReadsOneByte : Prop :=
  ∀ (i : Nat) (d : Word) (s : State), i < 64 →
    decode ((0x50000000 : Word) ||| (BitVec.ofNat 32 i <<< 16)) d = .ok (.rdb i) ∧
    ∃ t, exec (.rdb i) s = .next t ∧
      t.dout.extractLsb' 0 8 = s.blk.get i ∧ t.dout.extractLsb' 8 24 = 0 ∧
      SameChaining s t ∧ SameBlock s t ∧ SameEngine s t ∧ t.err = s.err

/-- R217: RDH reads one word of H, under either variant and before any INIT, into DOUT and changes nothing else. -/
def Obligations.RdhReadsOneWord : Prop :=
  ∀ (j : Nat) (d : Word) (s : State), j < 8 →
    decode ((0x60000000 : Word) ||| (BitVec.ofNat 32 j <<< 16)) d = .ok (.rdh j) ∧
    ∃ t, exec (.rdh j) s = .next t ∧
      some t.dout = [s.h.a, s.h.b, s.h.c, s.h.d, s.h.e, s.h.f, s.h.g, s.h.h][j]? ∧
      SameChaining s t ∧ SameBlock s t ∧ SameEngine s t ∧ t.err = s.err

/-- R57, R218: RDD reads digest byte `j`, which is byte `j mod 4` of `H[j div 4]`, big-endian; with INITD = 0, or with
SHA-224 and `j >= 28`, it writes 0 and records its error, if ERR was 0. -/
def Obligations.RddReadsDigestByte : Prop :=
  ∀ (j : Nat) (d : Word) (s : State), j < 32 →
    decode ((0x70000000 : Word) ||| (BitVec.ofNat 32 j <<< 16)) d = .ok (.rdd j) ∧
    ∃ t, exec (.rdd j) s = .next t ∧
      (s.initd = false → t.dout = 0 ∧ t.err = (if s.err = 0 then 4 else s.err)) ∧
      (s.initd = true → s.var = .sha224 → 28 ≤ j → t.dout = 0 ∧ t.err = (if s.err = 0 then 3 else s.err)) ∧
      (s.initd = true → s.var = .sha256 ∨ j < 28 →
        t.dout = ((s.h.word (j / 4)).extractLsb' (24 - 8 * (j % 4)) 8).setWidth 32 ∧ t.err = s.err) ∧
      SameChaining s t ∧ SameBlock s t ∧ SameEngine s t

/-- R219: RDS is the word 0x80000000 exactly; it puts STATUS, as it stands, into DOUT and changes nothing else. -/
def Obligations.RdsReadsStatus : Prop :=
  (∀ c d : Word, decode c d = .ok .rds ↔ c = 0x80000000) ∧
  ∀ s : State, ∃ t, exec .rds s = .next t ∧ t.dout = status s ∧
    SameChaining s t ∧ SameBlock s t ∧ SameEngine s t ∧ t.err = s.err

/-- R32, R33: the fields of STATUS; every other bit reads 0; its reset value. -/
def Obligations.StatusFieldLayout : Prop :=
  status State.reset = 0 ∧ ∀ s : State,
    (status s).getLsbD 0 = s.initd ∧ (status s).extractLsb' 1 1 = (if s.var = .sha256 then 1 else 0) ∧
    (status s).extractLsb' 2 2 = 0 ∧ (status s).extractLsb' 4 4 = s.err ∧
    ((status s).extractLsb' 8 6).toNat =
      (if s.initd = false then 0 else if s.var = .sha224 then 28 else 32) ∧
    (status s).extractLsb' 14 18 = 0

/-- R220: CLRERR is the word 0x90000000 exactly; it clears ERR and changes nothing else, INITD included. -/
def Obligations.ClrerrClearsError : Prop :=
  (∀ c d : Word, decode c d = .ok .clrerr ↔ c = 0x90000000) ∧
  ∀ s : State, ∃ t, exec .clrerr s = .next t ∧ t.err = 0 ∧
    SameChaining s t ∧ SameBlock s t ∧ SameEngine s t ∧ t.dout = s.dout

/-! ### Errors -/

/-- R282: the first error since the last clear is kept, and recording changes nothing else; INIT (before its own
check), CLRERR and reset clear ERR. -/
def Obligations.FirstErrorIsKept : Prop :=
  (∀ (e : CmdError) (s : State), s.err = 0 → raiseError e s = { s with err := e.code }) ∧
  (∀ (e : CmdError) (s : State), s.err ≠ 0 → raiseError e s = s) ∧
  (∀ s : State, ∃ t, exec (.init 0) s = .next t ∧ t.err = 0) ∧ (∀ s : State, ∃ t, exec (.init 1) s = .next t ∧ t.err = 0) ∧
  (∀ s : State, ∃ t, exec (.init 2) s = .next t ∧ t.err = 1) ∧ (∀ s : State, ∃ t, exec (.init 3) s = .next t ∧ t.err = 1) ∧
  (∀ s : State, ∃ t, exec .clrerr s = .next t ∧ t.err = 0) ∧
  (∀ (p : PortInput) (s : State), p.rst = true → ∃ t, topStep p s = .next t ∧ t.err = 0)

/-- R283: ERR gates no command: with any other ERR, a command that completes still completes, with the same result in
every element but ERR, and DOUT of RDS, which shows ERR. -/
def Obligations.ErrorGatesNoCommand : Prop :=
  ∀ (i : Instr) (s t : State) (e : BitVec 4), exec i s = .next t →
    ∃ u, exec i { s with err := e } = .next u ∧ SameChaining t u ∧ SameEngine t u ∧ u.blk = t.blk ∧
      (i ≠ .rds → u.dout = t.dout)

/-- R284: with no error recorded before, the one error of an accepted word is found in the order decode, INITD,
operand; every other word records none. -/
def Obligations.ErrorPriority : Prop :=
  ∀ (c d : Word) (s : State), s.err = 0 →
    ∃ t, execute c d s = .next t ∧
      (∀ e, decode c d = .error e → t.err = 2) ∧
      (decode c d = .ok .comp → t.err = if s.initd = false then 4 else 0) ∧
      (∀ j, decode c d = .ok (.rdd j) →
        t.err = if s.initd = false then 4 else if s.var = .sha224 ∧ 28 ≤ j then 3 else 0) ∧
      (∀ v, decode c d = .ok (.init v) → t.err = if v = 2 ∨ v = 3 then 1 else 0) ∧
      (∀ i, decode c d = .ok i → i ≠ .comp → (∀ j, i ≠ .rdd j) → (∀ v, i ≠ .init v) → t.err = 0)

/-! ### Whole-machine rules: who writes what -/

/-- R22: H changes only at reset, at an INIT that succeeds, and at the feed-forward step. -/
def Obligations.ChainingStateWriters : Prop :=
  ∀ s t : State, step s = .next t → t.h ≠ s.h →
    resets s ∨ accepts s (.init 0) ∨ accepts s (.init 1) ∨ feedsForward s

/-- R23, R24: VAR changes only at reset and at an INIT that succeeds; INITD is set only by an INIT that succeeds and
cleared only by reset and by an INIT that fails. -/
def Obligations.VariantAndInitialisedWriters : Prop :=
  ∀ s t : State, step s = .next t →
    (t.var ≠ s.var → resets s ∨ accepts s (.init 0) ∨ accepts s (.init 1)) ∧
    (s.initd = false → t.initd = true → accepts s (.init 0) ∨ accepts s (.init 1)) ∧
    (s.initd = true → t.initd = false → resets s ∨ accepts s (.init 2) ∨ accepts s (.init 3))

/-- R25, R282: while ERR holds an error, it changes only at reset, at INIT and at CLRERR; the codes ever written are
those of R281. -/
def Obligations.ErrorWriters : Prop :=
  ∀ s t : State, step s = .next t →
    (s.err ≠ 0 → t.err ≠ s.err → resets s ∨ accepts s .clrerr ∨ ∃ v, accepts s (.init v)) ∧
    (t.err ≠ s.err → t.err ∈ ([0, 1, 2, 3, 4] : List (BitVec 4)))

/-- R26, R317: DOUT changes only at reset and at an accepted RDB, RDH, RDD or RDS. -/
def Obligations.OutputRegisterWriters : Prop :=
  ∀ s t : State, step s = .next t → t.dout ≠ s.dout →
    resets s ∨ accepts s .rds ∨ ∃ k, accepts s (.rdb k) ∨ accepts s (.rdh k) ∨ accepts s (.rdd k)

/-- R30, R316: a byte of BLK changes only at reset, at an accepted WRB to it, and at an accepted WRW to its word: it
survives INIT, COMP and every engine step. -/
def Obligations.BlockBufferWriters : Prop :=
  ∀ (s t : State) (a : Nat), Memory.wf s.blk = true → step s = .next t → t.blk.get a ≠ s.blk.get a →
    resets s ∨ (∃ b, accepts s (.wrb a b)) ∨ ∃ w, accepts s (.wrw (a / 4) w)

/-- R27, R312: BUSY is set only by an accepted COMP with INITD = 1, and cleared only by the feed-forward step and by
reset. -/
def Obligations.BusyWriters : Prop :=
  ∀ s t : State, step s = .next t →
    (s.busy = false → t.busy = true → accepts s .comp ∧ s.initd = true) ∧
    (s.busy = true → t.busy = false → resets s ∨ feedsForward s)

/-- R312: while BUSY = 1, the words offered on the port, and whether one is offered, make no difference to the step;
`cmd_ready` is `not BUSY`. -/
def Obligations.BusyCoreIgnoresPort : Prop :=
  (∀ s : State, s.cmdReady = !s.busy) ∧
  ∀ (s : State) (p q : PortInput) (rest : List PortInput), s.busy = true → p.rst = q.rst →
    step { s with port := p :: rest } = step { s with port := q :: rest }

/-- R60: a read repeated reads the same and changes nothing more; a write repeated leaves the same state. -/
def Obligations.ReadsAndWritesAreIdempotent : Prop :=
  ∀ (i : Instr) (s t : State), Memory.wf s.blk = true →
    (i = .rds ∨ ∃ k, i = .rdb k ∨ i = .rdh k ∨ i = .rdd k ∨ (∃ b, i = .wrb k b) ∨ ∃ w, i = .wrw k w) →
    exec i s = .next t → exec i t = .next t

/-! ### The block buffer and the word codec -/

/-- R103: the two codec functions are inverses. -/
def Obligations.CodecFunctionsAreInverse : Prop :=
  (∀ w : Word, bytesToWord (wordToBytes w).1 (wordToBytes w).2.1 (wordToBytes w).2.2.1 (wordToBytes w).2.2.2 = w) ∧
  ∀ b0 b1 b2 b3 : Byte, wordToBytes (bytesToWord b0 b1 b2 b3) = (b0, b1, b2, b3)

/-- R53, R55: the mixed-width views of BLK. Byte `4i + k` is bits `31-8k .. 24-8k` of `W[i]`; a WRB to it changes exactly
those bits of `W[i]`, and no other schedule word of the sixteen; a WRW changes its four bytes alone; an RDB of one of
them after it returns those bits; a word read after a word write returns the word. -/
def Obligations.MixedWidthViews : Prop :=
  ∀ (i k : Nat) (s : State), i < 16 → k < 4 → Memory.wf s.blk = true →
    s.blk.get (4 * i + k) = (scheduleWord s.blk i).extractLsb' (24 - 8 * k) 8 ∧
    (∀ (b : Byte), ∃ t, exec (.wrb (4 * i + k) b) s = .next t ∧
      (scheduleWord t.blk i).extractLsb' (24 - 8 * k) 8 = b ∧
      (∀ k', k' < 4 → k' ≠ k → (scheduleWord t.blk i).extractLsb' (24 - 8 * k') 8 =
        (scheduleWord s.blk i).extractLsb' (24 - 8 * k') 8) ∧
      ∀ i', i' < 16 → i' ≠ i → scheduleWord t.blk i' = scheduleWord s.blk i') ∧
    (∀ v : Word, ∃ t u, exec (.wrw i v) s = .next t ∧ memRead4 (4 * i) t = .ok v ∧
      (∀ a, a < 4 * i ∨ 4 * i + 4 ≤ a → t.blk.get a = s.blk.get a) ∧
      exec (.rdb (4 * i + k)) t = .next u ∧ u.dout = (v.extractLsb' (24 - 8 * k) 8).setWidth 32)

/-- R101: rotation right by shifts, and bit by bit. -/
def Obligations.RotationBits : Prop :=
  ∀ (x : Word) (n : Nat), 0 < n → n < 32 →
    rotr x n = (x >>> n) ||| (x <<< (32 - n)) ∧
    ∀ i, i < 32 → (rotr x n).getLsbD i = x.getLsbD ((i + n) % 32)

/-! ### Schedule, rounds and compression -/

/-- R120, R121, R122, R123: the schedule is 64 words, sixteen from the block and the rest by the expansion sum. -/
def Obligations.ScheduleRecurrence : Prop :=
  ∀ m : Memory,
    (schedule m).length = 64 ∧
    (∀ t, t < 16 → scheduleWord m t =
      bytesToWord (m.get (4 * t)) (m.get (4 * t + 1)) (m.get (4 * t + 2)) (m.get (4 * t + 3))) ∧
    (∀ t, 16 ≤ t → t < 64 → scheduleWord m t =
      scheduleWord m (t - 16) +
        (rotr (scheduleWord m (t - 15)) 7 ^^^ rotr (scheduleWord m (t - 15)) 18 ^^^ scheduleWord m (t - 15) >>> 3) +
        scheduleWord m (t - 7) +
        (rotr (scheduleWord m (t - 2)) 17 ^^^ rotr (scheduleWord m (t - 2)) 19 ^^^ scheduleWord m (t - 2) >>> 10))

/-- R125: the sliding window holds `SW[k] = W[t-16+k]` before round `t`, and gives the same `W[t]`. -/
def Obligations.SlidingWindowGivesSchedule : Prop :=
  ∀ (m : Memory) (t : Nat), 16 ≤ t → t < 64 →
    (slidingWindow m (t - 16)).length = 16 ∧
    (∀ k, k < 16 → (slidingWindow m (t - 16)).getD k 0 = scheduleWord m (t - 16 + k)) ∧
    scheduleWord m t =
      (slidingWindow m (t - 16)).getD 0 0 + smallSigma0 ((slidingWindow m (t - 16)).getD 1 0) +
        (slidingWindow m (t - 16)).getD 9 0 + smallSigma1 ((slidingWindow m (t - 16)).getD 14 0)

/-- R162, R163: choose and majority, as formulas and bit by bit. -/
def Obligations.ChooseAndMajorityBits : Prop :=
  ∀ (x y z : Word) (i : Nat), i < 32 →
    ch x y z = (x &&& y) ^^^ (~~~x &&& z) ∧ maj x y z = (x &&& y) ^^^ (x &&& z) ^^^ (y &&& z) ∧
    (ch x y z).getLsbD i = (if x.getLsbD i then y.getLsbD i else z.getLsbD i) ∧
    (maj x y z).getLsbD i =
      decide (2 ≤ (x.getLsbD i).toNat + (y.getLsbD i).toNat + (z.getLsbD i).toNat)

/-- R160, R161, R164, R190 to R194: one round is one parallel update, its sums exact modulo 2^32. -/
def Obligations.RoundSumsModulo : Prop :=
  ∀ (x : Words8) (k w : Word),
    let t1 := (x.h.toNat + (rotr x.e 6 ^^^ rotr x.e 11 ^^^ rotr x.e 25).toNat + (ch x.e x.f x.g).toNat +
      k.toNat + w.toNat) % 2 ^ 32
    let t2 := ((rotr x.a 2 ^^^ rotr x.a 13 ^^^ rotr x.a 22).toNat + (maj x.a x.b x.c).toNat) % 2 ^ 32
    (roundFn x k w).a.toNat = (t1 + t2) % 2 ^ 32 ∧ (roundFn x k w).b = x.a ∧ (roundFn x k w).c = x.b ∧
    (roundFn x k w).d = x.c ∧ (roundFn x k w).e.toNat = (x.d.toNat + t1) % 2 ^ 32 ∧ (roundFn x k w).f = x.e ∧
    (roundFn x k w).g = x.f ∧ (roundFn x k w).h = x.g

/-- R171: the round step, whatever is offered on the port (the inputs of R313's `Step`), writes only WK and ROUND. -/
def Obligations.RoundStepWritesWkAndRound : Prop :=
  ∀ (p : PortInput) (s : State), p.rst = false → s.err.toNat ≤ 4 → s.busy = true → s.round.toNat < 64 →
    ∃ t, topStep p s = .next t ∧
      t.wk = roundFn s.wk (kRom s.round.toNat) (scheduleWord s.blk s.round.toNat) ∧
      t.round.toNat = s.round.toNat + 1 ∧ t.busy = true ∧
      SameChaining s t ∧ SameBlock s t ∧ t.err = s.err ∧ t.dout = s.dout

/-- R172, R195: the feed-forward step adds WK to H word by word, with no carry between words, and ends the compression. -/
def Obligations.FeedForwardAddsSnapshot : Prop :=
  ∀ (p : PortInput) (s : State), p.rst = false → s.err.toNat ≤ 4 → s.busy = true → s.round = 64 →
    ∃ t, topStep p s = .next t ∧
      (∀ i, i < 8 → (t.h.word i).toNat = ((s.h.word i).toNat + (s.wk.word i).toNat) % 2 ^ 32) ∧
      t.round = 0 ∧ t.busy = false ∧ t.wk = s.wk ∧ t.var = s.var ∧ t.initd = s.initd ∧
      SameBlock s t ∧ t.err = s.err ∧ t.dout = s.dout

/-- R173: after an accepted COMP exactly 65 engine steps follow; the host sees H unchanged until the last, and the
result is the atomic COMP, whatever the host offers meanwhile. -/
def Obligations.SixtyFiveStepsEqualAtomicCompression : Prop :=
  ∀ s t : State, s.initd = true → s.err.toNat ≤ 4 → noReset 65 s = true → exec .comp s = .next t →
    (∀ n, n < 65 → ∃ u, runSteps n t = .next u ∧ u.busy = true ∧ u.h = s.h ∧ u.round.toNat = n) ∧
    runSteps 65 t = .next { s with
      h := compress s.h s.blk, wk := rounds s.h s.blk, round := 0, busy := false, port := s.port.drop 65 }

/-- R174: a running compression is never stuck and ends after at most 65 steps, if the host drives no reset. -/
def Obligations.CompressionEnds : Prop :=
  ∀ s : State, Inv s → s.busy = true → noReset (65 - s.round.toNat) s = true →
    (∀ n, n < 65 - s.round.toNat → ∃ u, runSteps n s = .next u ∧ u.busy = true) ∧
    ∃ u, runSteps (65 - s.round.toNat) s = .next u ∧ u.busy = false

/-! ### The ROMs -/

/-- R140: `K[t]` is `icbrt(p_t * 2^96) mod 2^32`, with `p_t` the `t`-th prime, `p_0 = 2`. -/
def Obligations.RoundConstantsAreCubeRootFractions : Prop :=
  ∀ t, t < 64 → ∃ r : Nat, r ^ 3 ≤ Nat.nth Nat.Prime t * 2 ^ 96 ∧ Nat.nth Nat.Prime t * 2 ^ 96 < (r + 1) ^ 3 ∧
    kRom t = BitVec.ofNat 32 r

/-- R143: the initial values are the first and second 32 fraction bits of square roots of primes. -/
def Obligations.InitialValuesAreSquareRootFractions : Prop :=
  ∀ i, i < 8 →
    iv256.word i = BitVec.ofNat 32 (Nat.sqrt (Nat.nth Nat.Prime i * 2 ^ 64)) ∧
    iv224.word i = BitVec.ofNat 32 (Nat.sqrt (Nat.nth Nat.Prime (8 + i) * 2 ^ 128))

/-! ### The host's part -/

/-- R251, R252: the padded message, its number of zero bytes the least that reaches 448 bits modulo 512, and its length
the least multiple of 64 that is at least `L + 9`. -/
def Obligations.PaddingFillsBlocks : Prop :=
  ∀ m : List Byte,
    (∃ z, IsLeast {z : Nat | 8 * (m.length + 1 + z) % 512 = 448} z ∧ (z : Int) = (55 - m.length) % 64 ∧
      pad m = m ++ [0x80] ++ List.replicate z 0 ++
        (let n := BitVec.ofNat 64 (8 * m.length)
         [n.extractLsb' 56 8, n.extractLsb' 48 8, n.extractLsb' 40 8, n.extractLsb' 32 8,
          n.extractLsb' 24 8, n.extractLsb' 16 8, n.extractLsb' 8 8, n.extractLsb' 0 8])) ∧
    IsLeast {n : Nat | 64 ∣ n ∧ m.length + 9 ≤ n} (pad m).length ∧
    pad [] = 0x80 :: List.replicate 63 0

/-- R254: the blocks are the 64-byte pieces of the padded message, in order. -/
def Obligations.BlocksPartitionPaddedMessage : Prop :=
  ∀ m : List Byte,
    (blocksOf m).flatten = pad m ∧ (blocksOf m).length = (pad m).length / 64 ∧ ∀ x ∈ blocksOf m, x.length = 64

/-- R82, R315: from any state that meets the control invariant and is idle, LDBLK puts the 64 bytes into BLK and
changes nothing else. -/
def Obligations.LdblkLoadsBlock : Prop :=
  ∀ (s : State) (x : List Byte), Inv s → s.busy = false → x.length = 64 →
    ∃ t, issueAll (ldblk x) s = some t ∧ (∀ k, k < 64 → some (t.blk.get k) = x[k]?) ∧
      SameChaining s t ∧ SameEngine s t ∧ t.err = s.err ∧ t.dout = s.dout ∧ t.port = s.port

/-- R255, R256, R257: from every state that meets the control invariant, busy or not, and for every message, the host
sequence of `computeDigest` returns the digest of R257, 28 or 32 bytes, for the two variants, and UnsupportedVariant
for the other two variant values. -/
def Obligations.HostSequenceComputesDigest : Prop :=
  ∀ (m : List Byte) (s : State), Inv s →
    (∃ t, computeDigest m 0 s = some (.ok (digest .sha224 m), t) ∧ Inv t ∧ t.err = 0) ∧
    (digest .sha224 m).length = 28 ∧
    (∃ t, computeDigest m 1 s = some (.ok (digest .sha256 m), t) ∧ Inv t ∧ t.err = 0) ∧
    (digest .sha256 m).length = 32 ∧
    (∀ v : BitVec 2, v = 2 ∨ v = 3 → ∃ t, computeDigest m v s = some (.unsupportedVariant, t) ∧ t.initd = false)

/-- R81, R82: the lines of the assembler. A line whose operands are in R81's ranges is the pair R81's table gives; an
operand outside its range, index or data or variant or raw word, is an assembly error and is never wrapped; so are an
RDDIG of another length and a block that is not 64 bytes. A well-formed command assembles to a pair that decodes to it,
an ill-formed one to none, and no pair decodes to it. -/
def Obligations.AssemblerChecksRanges : Prop :=
  (assembleLine (.command "NOP".toList []) = some [(0x00000000, 0)] ∧
    assembleLine (.command "COMP".toList []) = some [(0x40000000, 0)] ∧
    assembleLine (.command "RDS".toList []) = some [(0x80000000, 0)] ∧
    assembleLine (.command "CLRERR".toList []) = some [(0x90000000, 0)]) ∧
  (∀ v : Nat, assembleLine (.command "INIT".toList [v]) =
    if v < 4 then some [((0x10000000 : Word) ||| BitVec.ofNat 32 v, 0)] else none) ∧
  (∀ i b : Nat, assembleLine (.command "WRB".toList [i, b]) =
    if i < 64 ∧ b < 256 then some [((0x20000000 : Word) ||| (BitVec.ofNat 32 i <<< 16), BitVec.ofNat 32 b)] else none) ∧
  (∀ i w : Nat, assembleLine (.command "WRW".toList [i, w]) =
    if i < 16 ∧ w < 2 ^ 32 then some [((0x30000000 : Word) ||| (BitVec.ofNat 32 i <<< 16), BitVec.ofNat 32 w)]
    else none) ∧
  (∀ i : Nat, assembleLine (.command "RDB".toList [i]) =
    if i < 64 then some [((0x50000000 : Word) ||| (BitVec.ofNat 32 i <<< 16), 0)] else none) ∧
  (∀ j : Nat, assembleLine (.command "RDH".toList [j]) =
    if j < 8 then some [((0x60000000 : Word) ||| (BitVec.ofNat 32 j <<< 16), 0)] else none) ∧
  (∀ j : Nat, assembleLine (.command "RDD".toList [j]) =
    if j < 32 then some [((0x70000000 : Word) ||| (BitVec.ofNat 32 j <<< 16), 0)] else none) ∧
  (∀ c d : Nat, assembleLine (.raw c d) =
    if c < 2 ^ 32 ∧ d < 2 ^ 32 then some [(BitVec.ofNat 32 c, BitVec.ofNat 32 d)] else none) ∧
  (∀ n : Nat, n ≠ 28 → n ≠ 32 → assembleLine (.rddig n) = none) ∧
  (∀ x : List Byte, x.length ≠ 64 → assembleLine (.ldblk x) = none ∧ assembleLine (.block x) = none) ∧
  (∀ i : Instr,
    (wellFormed i = true → ∃ c d, assembleInstr i = some (c, d) ∧ decode c d = .ok i) ∧
    (wellFormed i = false → assembleInstr i = none ∧ ∀ c d, decode c d ≠ .ok i))

/-- R37, R293: a step of one core leaves every other core of a platform as it is, and is the step that core takes alone. -/
def Obligations.CoresAreIndependent : Prop :=
  ∀ (k : Nat) (p q : Platform), platformStep k p = .next q →
    (∀ j, j ≠ k → q[j]? = p[j]?) ∧ ∀ s, p[k]? = some s → ∃ t, step s = .next t ∧ q[k]? = some t
end

