-- ==== Sys2Proof/Laws/Assembler.lean ====
section
/-! SUPPORT. What `commandOf` answers for each mnemonic with operands (R81), so that proofs do not compare mnemonics. -/

namespace Sys2Proof.Machine

theorem commandOf_init (v : Nat) :
    commandOf "INIT".toList [v] = if v < 4 then some (.init (BitVec.ofNat 2 v)) else none := by
  rw [commandOf, if_neg (by decide), if_pos rfl]

theorem commandOf_wrb (i b : Nat) :
    commandOf "WRB".toList [i, b] = if b < 256 then some (.wrb i (BitVec.ofNat 8 b)) else none := by
  rw [commandOf, if_neg (by decide), if_neg (by decide), if_pos rfl]
  rfl

theorem commandOf_wrw (i w : Nat) :
    commandOf "WRW".toList [i, w] = if w < 2 ^ 32 then some (.wrw i (BitVec.ofNat 32 w)) else none := by
  rw [commandOf, if_neg (by decide), if_neg (by decide), if_neg (by decide), if_pos rfl]

theorem commandOf_rdb (i : Nat) : commandOf "RDB".toList [i] = some (.rdb i) := by
  rw [commandOf, if_neg (by decide), if_neg (by decide), if_neg (by decide), if_neg (by decide), if_neg (by decide),
    if_pos rfl]

theorem commandOf_rdh (j : Nat) : commandOf "RDH".toList [j] = some (.rdh j) := by
  rw [commandOf, if_neg (by decide), if_neg (by decide), if_neg (by decide), if_neg (by decide), if_neg (by decide),
    if_neg (by decide), if_pos rfl]

theorem commandOf_rdd (j : Nat) : commandOf "RDD".toList [j] = some (.rdd j) := by
  rw [commandOf, if_neg (by decide), if_neg (by decide), if_neg (by decide), if_neg (by decide), if_neg (by decide),
    if_neg (by decide), if_neg (by decide), if_pos rfl]

theorem assembleInstr_of_wellFormed {i : Instr} (h : wellFormed i = true) : assembleInstr i = some (encode i) :=
  if_pos h

theorem assembleInstr_of_illFormed {i : Instr} (h : wellFormed i = false) : assembleInstr i = none :=
  if_neg (by rw [h]; decide)

end Sys2Proof.Machine
end

