-- ==== Sys2Proof/Laws/Decode.lean ====
section
/-! SUPPORT. Format C's fields (R72). -/

namespace Sys2Proof

/-- The fields of a joined word are the fields it was joined from. -/
theorem splitFields_joinFields (f : CmdFields) : splitFields (joinFields f) = f := by
  obtain ⟨op, z1, idx, z2, var⟩ := f
  simp only [splitFields, joinFields, CmdFields.mk.injEq]
  refine ⟨?_, ?_, ?_, ?_, ?_⟩ <;> ext i hi <;>
    simp only [BitVec.getElem_extractLsb', BitVec.getLsbD_append] <;>
    rw [← BitVec.getLsbD_eq_getElem] <;>
    repeat' (split <;> try omega)
  all_goals congr 1; omega

/-- The fields of a word that `encode` builds. -/
theorem splitFields_formatC (op : BitVec 4) (idx : Nat) (var : BitVec 2) :
    splitFields (formatC op idx var) = { op := op, z1 := 0, idx := BitVec.ofNat 6 idx, z2 := 0, var := var } :=
  splitFields_joinFields _

end Sys2Proof
end

