-- ==== Sys2Proof/Laws/Memory.lean ====
section
/-! SUPPORT. The block buffer as data (log 7): every write keeps the canonical form, what a byte reads after a write,
and that canonical buffers which read the same are equal. -/

namespace Sys2Proof.Machine

theorem Memory.wfFrom_cons {lo a : Nat} {b : Byte} {m : Memory} :
    Memory.wfFrom lo ((a, b) :: m) = true ↔
      lo ≤ a ∧ a < 64 ∧ b ≠ Memory.unlisted ∧ Memory.wfFrom (a + 1) m = true := by
  simp [Memory.wfFrom, and_assoc]

theorem Memory.wfFrom_mono {m : Memory} {lo hi : Nat} (h : lo ≤ hi) (hm : Memory.wfFrom hi m = true) :
    Memory.wfFrom lo m = true := by
  cases m with
  | nil => rfl
  | cons c m =>
    obtain ⟨a, b⟩ := c
    rw [Memory.wfFrom_cons] at hm ⊢
    exact ⟨by omega, hm.2⟩

theorem Memory.get_below {m : Memory} {lo x : Nat} (hm : Memory.wfFrom lo m = true) (h : x < lo) :
    Memory.get m x = Memory.unlisted := by
  induction m generalizing lo with
  | nil => rfl
  | cons c m ih =>
    obtain ⟨a, b⟩ := c
    rw [Memory.wfFrom_cons] at hm
    rw [Memory.get, if_neg (by omega)]
    exact ih hm.2.2.2 (by omega)

/-- An address outside the buffer is never listed. -/
theorem Memory.get_outside {m : Memory} {lo x : Nat} (hm : Memory.wfFrom lo m = true) (h : 64 ≤ x) :
    Memory.get m x = Memory.unlisted := by
  induction m generalizing lo with
  | nil => rfl
  | cons c m ih =>
    obtain ⟨a, b⟩ := c
    rw [Memory.wfFrom_cons] at hm
    rw [Memory.get, if_neg (by omega)]
    exact ih hm.2.2.2

/-- A write keeps the canonical form. -/
theorem Memory.set_wfFrom {m : Memory} {lo x : Nat} {v : Byte} (hm : Memory.wfFrom lo m = true)
    (hlo : lo ≤ x) (hx : x < 64) : Memory.wfFrom lo (Memory.set m x v) = true := by
  induction m generalizing lo with
  | nil =>
    by_cases hv : v = Memory.unlisted <;> simp [Memory.set, Memory.wfFrom, hv, hlo, hx]
  | cons c m ih =>
    obtain ⟨a, b⟩ := c
    have hc := Memory.wfFrom_cons.1 hm
    simp only [Memory.set]
    split_ifs with h1 h2 h3 h4
    · exact hm
    · exact Memory.wfFrom_cons.2 ⟨hlo, hx, h2, Memory.wfFrom_cons.2 ⟨by omega, hc.2⟩⟩
    · exact Memory.wfFrom_mono (by omega) hc.2.2.2
    · exact Memory.wfFrom_cons.2 ⟨hlo, hx, h4, h3 ▸ hc.2.2.2⟩
    · exact Memory.wfFrom_cons.2 ⟨hc.1, hc.2.1, hc.2.2.1, ih hc.2.2.2 (by omega)⟩

/-- A byte after a write: the byte written at its address, the old byte everywhere else. -/
theorem Memory.get_set {m : Memory} {lo x y : Nat} {v : Byte} (hm : Memory.wfFrom lo m = true) :
    Memory.get (Memory.set m x v) y = if y = x then v else Memory.get m y := by
  induction m generalizing lo with
  | nil =>
    by_cases hy : y = x
    · subst hy
      by_cases hv : v = Memory.unlisted <;> simp [Memory.set, Memory.get, hv]
    · by_cases hv : v = Memory.unlisted <;> simp [Memory.set, Memory.get, hv, hy, Ne.symm hy]
  | cons c m ih =>
    obtain ⟨a, b⟩ := c
    have hc := Memory.wfFrom_cons.1 hm
    have hbelow : ∀ z, z ≤ a → Memory.get m z = Memory.unlisted :=
      fun z hz => Memory.get_below hc.2.2.2 (by omega)
    simp only [Memory.set]
    by_cases h1 : x < a
    · have hx := hbelow x (by omega)
      by_cases hv : v = Memory.unlisted
      · by_cases hy : y = x
        · subst hy
          simp [h1, hv, Memory.get, hx, show a ≠ y by omega]
        · simp [h1, hv, hy]
      · by_cases hy : y = x
        · subst hy; simp [h1, hv, Memory.get]
        · simp [h1, hv, Memory.get, hy, Ne.symm hy]
    · by_cases h2 : x = a
      · subst h2
        have hx := hbelow x (le_refl x)
        by_cases hv : v = Memory.unlisted
        · by_cases hy : y = x
          · subst hy; simp [hv, hx]
          · simp [hv, Memory.get, hy, Ne.symm hy]
        · by_cases hy : y = x
          · subst hy; simp [hv, Memory.get]
          · simp [hv, Memory.get, hy, Ne.symm hy]
      · simp only [h1, h2, if_false, Memory.get]
        by_cases hy : a = y
        · subst hy; simp [Ne.symm h2]
        · simp [hy, ih hc.2.2.2]

/-- Canonical memories that read the same everywhere are the same data. -/
theorem Memory.ext_get {m n : Memory} {lo : Nat} (hm : Memory.wfFrom lo m = true) (hn : Memory.wfFrom lo n = true)
    (h : ∀ x, Memory.get m x = Memory.get n x) : m = n := by
  induction m generalizing lo n with
  | nil =>
    cases n with
    | nil => rfl
    | cons c n =>
      obtain ⟨a, b⟩ := c
      have := h a
      simp [Memory.get] at this
      exact absurd this.symm (Memory.wfFrom_cons.1 hn).2.2.1
  | cons c m ih =>
    obtain ⟨a, b⟩ := c
    have hc := Memory.wfFrom_cons.1 hm
    cases n with
    | nil =>
      have := h a
      simp [Memory.get] at this
      exact absurd this hc.2.2.1
    | cons d n =>
      obtain ⟨a', b'⟩ := d
      have hd := Memory.wfFrom_cons.1 hn
      have haa : a = a' := by
        rcases lt_trichotomy a a' with hlt | heq | hgt
        · have := h a
          rw [Memory.get, if_pos rfl, Memory.get, if_neg (by omega), Memory.get_below hd.2.2.2 (by omega)] at this
          exact absurd this hc.2.2.1
        · exact heq
        · have := h a'
          rw [Memory.get, if_neg (by omega), Memory.get_below hc.2.2.2 (by omega), Memory.get, if_pos rfl] at this
          exact absurd this.symm hd.2.2.1
      subst haa
      have hb : b = b' := by simpa [Memory.get] using h a
      subst hb
      congr 1
      refine ih hc.2.2.2 hd.2.2.2 fun x => ?_
      by_cases hx : a = x
      · subst hx
        rw [Memory.get_below hc.2.2.2 (by omega), Memory.get_below hd.2.2.2 (by omega)]
      · simpa [Memory.get, hx] using h x

theorem Memory.set_wf {m : Memory} {x : Nat} {v : Byte} (hm : Memory.wf m = true) (hx : x < 64) :
    Memory.wf (Memory.set m x v) = true :=
  Memory.set_wfFrom hm (Nat.zero_le x) hx

/-- `MemWrite(i, 4, v)` keeps the canonical form. -/
theorem Memory.setWord_wf {m : Memory} {i : Nat} {v : Word} (hm : Memory.wf m = true) (hi : i + 4 ≤ 64) :
    Memory.wf (Memory.setWord m i v) = true :=
  Memory.set_wf (Memory.set_wf (Memory.set_wf (Memory.set_wf hm (by omega)) (by omega)) (by omega)) (by omega)

/-- A byte after `MemWrite(i, 4, v)`: R53. -/
theorem Memory.get_setWord {m : Memory} {i y : Nat} {v : Word} (hm : Memory.wf m = true) (hi : i + 4 ≤ 64) :
    Memory.get (Memory.setWord m i v) y =
      if y < i ∨ i + 4 ≤ y then Memory.get m y else byteOfWord v (y - i) := by
  have h0 : Memory.wfFrom 0 (m.set i (byteOfWord v 0)) = true := Memory.set_wf hm (by omega)
  have h1 : Memory.wfFrom 0 ((m.set i (byteOfWord v 0)).set (i + 1) (byteOfWord v 1)) = true :=
    Memory.set_wf h0 (by omega)
  have h2 : Memory.wfFrom 0 (((m.set i (byteOfWord v 0)).set (i + 1) (byteOfWord v 1)).set (i + 2) (byteOfWord v 2)) = true :=
    Memory.set_wf h1 (by omega)
  rw [Memory.setWord, Memory.get_set h2, Memory.get_set h1, Memory.get_set h0, Memory.get_set hm]
  by_cases hlo : y < i ∨ i + 4 ≤ y
  · rw [if_pos hlo, if_neg (by omega), if_neg (by omega), if_neg (by omega), if_neg (by omega)]
  · rw [if_neg hlo]
    obtain rfl | rfl | rfl | rfl : y = i ∨ y = i + 1 ∨ y = i + 2 ∨ y = i + 3 := by omega
    all_goals simp

/-- Consecutive byte writes keep the canonical form. -/
theorem Memory.setBytes_wf {m : Memory} {i : Nat} {x : List Byte} (hm : Memory.wf m = true)
    (hi : i + x.length ≤ 64) : Memory.wf (Memory.setBytes m i x) = true := by
  induction x generalizing m i with
  | nil => exact hm
  | cons b bs ih =>
    simp only [List.length_cons] at hi
    exact ih (Memory.set_wf hm (by omega)) (by omega)

/-- A byte after consecutive byte writes. -/
theorem Memory.get_setBytes {m : Memory} {i y : Nat} {x : List Byte} (hm : Memory.wf m = true)
    (hi : i + x.length ≤ 64) : Memory.get (Memory.setBytes m i x) y =
      if y < i ∨ i + x.length ≤ y then Memory.get m y else x.getD (y - i) 0 := by
  induction x generalizing m i with
  | nil =>
    rw [if_pos (by simp; omega)]; rfl
  | cons b bs ih =>
    simp only [List.length_cons] at hi ⊢
    rw [Memory.setBytes, ih (Memory.set_wf hm (by omega)) (by omega), Memory.get_set hm]
    by_cases h1 : y < i ∨ i + (bs.length + 1) ≤ y
    · rw [if_pos h1, if_pos (by omega), if_neg (by omega)]
    · rw [if_neg h1]
      by_cases h2 : y = i
      · subst h2; simp
      · rw [if_neg (by omega), show y - i = (y - (i + 1)) + 1 by omega]; simp

/-- Reset memory has the canonical form. -/
theorem Memory.reset_wf : Memory.wf State.reset.blk = true := rfl

end Sys2Proof.Machine
end

