-- ==== Sys2Proof/Laws/PerInstr.lean ====
section
/-! SUPPORT. The family TableRow, one lemma per constructor of Instr: the word of a well-formed command selects the
command's row of the opcode map (R77). -/

namespace Sys2Proof.Laws.TableRow

/-- The encoded word of a well-formed command matches its row's mask and pattern (R77, R81). -/
def Statement (i : Instr) : Prop :=
  wellFormed i = true → (encode i).1 &&& (rowOf i).mask = (rowOf i).pattern

theorem nop : Statement .nop := fun _ => by decide

theorem init (v : BitVec 2) : Statement (.init v) := fun _ => by
  revert v; decide

theorem wrb (i : Nat) (b : Byte) : Statement (.wrb i b) := fun h => by
  have row : ∀ k : Fin 64, formatC 0x2 k.val 0 &&& 0xFFC0FFFF = 0x20000000 := by decide
  exact row ⟨i, of_decide_eq_true h⟩

theorem wrw (i : Nat) (w : Word) : Statement (.wrw i w) := fun h => by
  have row : ∀ k : Fin 16, formatC 0x3 k.val 0 &&& 0xFFF0FFFF = 0x30000000 := by decide
  exact row ⟨i, of_decide_eq_true h⟩

theorem comp : Statement .comp := fun _ => by decide

theorem rdb (i : Nat) : Statement (.rdb i) := fun h => by
  have row : ∀ k : Fin 64, formatC 0x5 k.val 0 &&& 0xFFC0FFFF = 0x50000000 := by decide
  exact row ⟨i, of_decide_eq_true h⟩

theorem rdh (j : Nat) : Statement (.rdh j) := fun h => by
  have row : ∀ k : Fin 8, formatC 0x6 k.val 0 &&& 0xFFF8FFFF = 0x60000000 := by decide
  exact row ⟨j, of_decide_eq_true h⟩

theorem rdd (j : Nat) : Statement (.rdd j) := fun h => by
  have row : ∀ k : Fin 32, formatC 0x7 k.val 0 &&& 0xFFE0FFFF = 0x70000000 := by decide
  exact row ⟨j, of_decide_eq_true h⟩

theorem rds : Statement .rds := fun _ => by decide

theorem clrerr : Statement .clrerr := fun _ => by decide

end Sys2Proof.Laws.TableRow
end

