-- ==== Sys2Proof/Laws/State.lean ====
section
/-! SUPPORT. One lemma per field per register update (each true by `rfl`), so that no proof unfolds an update. -/

namespace Sys2Proof.Machine

section
variable (s : State) (v : Words8)
@[simp] theorem State.setH_h : (s.setH v).h = v := rfl
@[simp] theorem State.setH_var : (s.setH v).var = s.var := rfl
@[simp] theorem State.setH_initd : (s.setH v).initd = s.initd := rfl
@[simp] theorem State.setH_err : (s.setH v).err = s.err := rfl
@[simp] theorem State.setH_dout : (s.setH v).dout = s.dout := rfl
@[simp] theorem State.setH_blk : (s.setH v).blk = s.blk := rfl
@[simp] theorem State.setH_busy : (s.setH v).busy = s.busy := rfl
@[simp] theorem State.setH_round : (s.setH v).round = s.round := rfl
@[simp] theorem State.setH_wk : (s.setH v).wk = s.wk := rfl
@[simp] theorem State.setH_port : (s.setH v).port = s.port := rfl
end

section
variable (s : State) (v : Variant)
@[simp] theorem State.setVar_h : (s.setVar v).h = s.h := rfl
@[simp] theorem State.setVar_var : (s.setVar v).var = v := rfl
@[simp] theorem State.setVar_initd : (s.setVar v).initd = s.initd := rfl
@[simp] theorem State.setVar_err : (s.setVar v).err = s.err := rfl
@[simp] theorem State.setVar_dout : (s.setVar v).dout = s.dout := rfl
@[simp] theorem State.setVar_blk : (s.setVar v).blk = s.blk := rfl
@[simp] theorem State.setVar_busy : (s.setVar v).busy = s.busy := rfl
@[simp] theorem State.setVar_round : (s.setVar v).round = s.round := rfl
@[simp] theorem State.setVar_wk : (s.setVar v).wk = s.wk := rfl
@[simp] theorem State.setVar_port : (s.setVar v).port = s.port := rfl
end

section
variable (s : State) (v : Bool)
@[simp] theorem State.setInitd_h : (s.setInitd v).h = s.h := rfl
@[simp] theorem State.setInitd_var : (s.setInitd v).var = s.var := rfl
@[simp] theorem State.setInitd_initd : (s.setInitd v).initd = v := rfl
@[simp] theorem State.setInitd_err : (s.setInitd v).err = s.err := rfl
@[simp] theorem State.setInitd_dout : (s.setInitd v).dout = s.dout := rfl
@[simp] theorem State.setInitd_blk : (s.setInitd v).blk = s.blk := rfl
@[simp] theorem State.setInitd_busy : (s.setInitd v).busy = s.busy := rfl
@[simp] theorem State.setInitd_round : (s.setInitd v).round = s.round := rfl
@[simp] theorem State.setInitd_wk : (s.setInitd v).wk = s.wk := rfl
@[simp] theorem State.setInitd_port : (s.setInitd v).port = s.port := rfl
end

section
variable (s : State) (v : BitVec 4)
@[simp] theorem State.setErr_h : (s.setErr v).h = s.h := rfl
@[simp] theorem State.setErr_var : (s.setErr v).var = s.var := rfl
@[simp] theorem State.setErr_initd : (s.setErr v).initd = s.initd := rfl
@[simp] theorem State.setErr_err : (s.setErr v).err = v := rfl
@[simp] theorem State.setErr_dout : (s.setErr v).dout = s.dout := rfl
@[simp] theorem State.setErr_blk : (s.setErr v).blk = s.blk := rfl
@[simp] theorem State.setErr_busy : (s.setErr v).busy = s.busy := rfl
@[simp] theorem State.setErr_round : (s.setErr v).round = s.round := rfl
@[simp] theorem State.setErr_wk : (s.setErr v).wk = s.wk := rfl
@[simp] theorem State.setErr_port : (s.setErr v).port = s.port := rfl
end

section
variable (s : State) (v : Word)
@[simp] theorem State.setDout_h : (s.setDout v).h = s.h := rfl
@[simp] theorem State.setDout_var : (s.setDout v).var = s.var := rfl
@[simp] theorem State.setDout_initd : (s.setDout v).initd = s.initd := rfl
@[simp] theorem State.setDout_err : (s.setDout v).err = s.err := rfl
@[simp] theorem State.setDout_dout : (s.setDout v).dout = v := rfl
@[simp] theorem State.setDout_blk : (s.setDout v).blk = s.blk := rfl
@[simp] theorem State.setDout_busy : (s.setDout v).busy = s.busy := rfl
@[simp] theorem State.setDout_round : (s.setDout v).round = s.round := rfl
@[simp] theorem State.setDout_wk : (s.setDout v).wk = s.wk := rfl
@[simp] theorem State.setDout_port : (s.setDout v).port = s.port := rfl
end

section
variable (s : State) (v : Memory)
@[simp] theorem State.setBlk_h : (s.setBlk v).h = s.h := rfl
@[simp] theorem State.setBlk_var : (s.setBlk v).var = s.var := rfl
@[simp] theorem State.setBlk_initd : (s.setBlk v).initd = s.initd := rfl
@[simp] theorem State.setBlk_err : (s.setBlk v).err = s.err := rfl
@[simp] theorem State.setBlk_dout : (s.setBlk v).dout = s.dout := rfl
@[simp] theorem State.setBlk_blk : (s.setBlk v).blk = v := rfl
@[simp] theorem State.setBlk_busy : (s.setBlk v).busy = s.busy := rfl
@[simp] theorem State.setBlk_round : (s.setBlk v).round = s.round := rfl
@[simp] theorem State.setBlk_wk : (s.setBlk v).wk = s.wk := rfl
@[simp] theorem State.setBlk_port : (s.setBlk v).port = s.port := rfl
end

section
variable (s : State) (v : Bool)
@[simp] theorem State.setBusy_h : (s.setBusy v).h = s.h := rfl
@[simp] theorem State.setBusy_var : (s.setBusy v).var = s.var := rfl
@[simp] theorem State.setBusy_initd : (s.setBusy v).initd = s.initd := rfl
@[simp] theorem State.setBusy_err : (s.setBusy v).err = s.err := rfl
@[simp] theorem State.setBusy_dout : (s.setBusy v).dout = s.dout := rfl
@[simp] theorem State.setBusy_blk : (s.setBusy v).blk = s.blk := rfl
@[simp] theorem State.setBusy_busy : (s.setBusy v).busy = v := rfl
@[simp] theorem State.setBusy_round : (s.setBusy v).round = s.round := rfl
@[simp] theorem State.setBusy_wk : (s.setBusy v).wk = s.wk := rfl
@[simp] theorem State.setBusy_port : (s.setBusy v).port = s.port := rfl
end

section
variable (s : State) (v : BitVec 7)
@[simp] theorem State.setRound_h : (s.setRound v).h = s.h := rfl
@[simp] theorem State.setRound_var : (s.setRound v).var = s.var := rfl
@[simp] theorem State.setRound_initd : (s.setRound v).initd = s.initd := rfl
@[simp] theorem State.setRound_err : (s.setRound v).err = s.err := rfl
@[simp] theorem State.setRound_dout : (s.setRound v).dout = s.dout := rfl
@[simp] theorem State.setRound_blk : (s.setRound v).blk = s.blk := rfl
@[simp] theorem State.setRound_busy : (s.setRound v).busy = s.busy := rfl
@[simp] theorem State.setRound_round : (s.setRound v).round = v := rfl
@[simp] theorem State.setRound_wk : (s.setRound v).wk = s.wk := rfl
@[simp] theorem State.setRound_port : (s.setRound v).port = s.port := rfl
end

section
variable (s : State) (v : Words8)
@[simp] theorem State.setWk_h : (s.setWk v).h = s.h := rfl
@[simp] theorem State.setWk_var : (s.setWk v).var = s.var := rfl
@[simp] theorem State.setWk_initd : (s.setWk v).initd = s.initd := rfl
@[simp] theorem State.setWk_err : (s.setWk v).err = s.err := rfl
@[simp] theorem State.setWk_dout : (s.setWk v).dout = s.dout := rfl
@[simp] theorem State.setWk_blk : (s.setWk v).blk = s.blk := rfl
@[simp] theorem State.setWk_busy : (s.setWk v).busy = s.busy := rfl
@[simp] theorem State.setWk_round : (s.setWk v).round = s.round := rfl
@[simp] theorem State.setWk_wk : (s.setWk v).wk = v := rfl
@[simp] theorem State.setWk_port : (s.setWk v).port = s.port := rfl
end

section
variable (s : State) (v : List PortInput)
@[simp] theorem State.setPort_h : (s.setPort v).h = s.h := rfl
@[simp] theorem State.setPort_var : (s.setPort v).var = s.var := rfl
@[simp] theorem State.setPort_initd : (s.setPort v).initd = s.initd := rfl
@[simp] theorem State.setPort_err : (s.setPort v).err = s.err := rfl
@[simp] theorem State.setPort_dout : (s.setPort v).dout = s.dout := rfl
@[simp] theorem State.setPort_blk : (s.setPort v).blk = s.blk := rfl
@[simp] theorem State.setPort_busy : (s.setPort v).busy = s.busy := rfl
@[simp] theorem State.setPort_round : (s.setPort v).round = s.round := rfl
@[simp] theorem State.setPort_wk : (s.setPort v).wk = s.wk := rfl
@[simp] theorem State.setPort_port : (s.setPort v).port = v := rfl
end

end Sys2Proof.Machine
end

