-- ==== Sys2Proof/Laws/Step.lean ====
section
/-! SUPPORT. What the shared operations, the branching commands and one step can do: an equation for each case with its
guards, and one inversion lemma each, so that proofs cite these and do not unfold the step. -/

namespace Sys2Proof.Machine

/-! ### Recording an error, and access to BLK -/

theorem raiseError_of_clear {s : State} (e : CmdError) (h : s.err = 0) : raiseError e s = s.setErr e.code := if_pos h

theorem raiseError_of_error {s : State} (e : CmdError) (h : s.err ≠ 0) : raiseError e s = s := if_neg h

/-- Recording an error writes ERR, the first error kept, and nothing else (R282). -/
theorem raiseError_eq (e : CmdError) (s : State) :
    raiseError e s = s.setErr (if s.err = 0 then e.code else s.err) := by
  by_cases h : s.err = 0
  · rw [raiseError_of_clear e h, if_pos h]
  · rw [raiseError_of_error e h, if_neg h]; rfl

theorem memRead1_eq {i : Nat} (s : State) (h : i < 64) : memRead1 i s = .ok (s.blk.get i) :=
  if_pos h

theorem memRead4_eq {i : Nat} (s : State) (h : i + 4 ≤ 64) : memRead4 i s = .ok (s.blk.word i) :=
  if_pos h

theorem memWrite1_eq {i : Nat} (v : Byte) (s : State) (h : i < 64) :
    memWrite1 i v s = .next (s.setBlk (s.blk.set i v)) :=
  if_pos h

theorem memWrite4_eq {i : Nat} (v : Word) (s : State) (h : i + 4 ≤ 64) :
    memWrite4 i v s = .next (s.setBlk (s.blk.setWord i v)) :=
  if_pos h

theorem memWrite1_next {i : Nat} {v : Byte} {s t : State} (h : memWrite1 i v s = .next t) :
    i < 64 ∧ t = s.setBlk (s.blk.set i v) := by
  simp only [memWrite1] at h
  split at h
  · rename_i hi
    cases h; exact ⟨hi, rfl⟩
  · cases h

theorem memWrite4_next {i : Nat} {v : Word} {s t : State} (h : memWrite4 i v s = .next t) :
    i + 4 ≤ 64 ∧ t = s.setBlk (s.blk.setWord i v) := by
  simp only [memWrite4] at h
  split at h
  · rename_i hi
    cases h; exact ⟨hi, rfl⟩
  · cases h

/-! ### What a command can do: one inversion lemma per command that branches -/

theorem execInit_next {v : BitVec 2} {s t : State} (h : execInit v s = .next t) :
    (v = 0 ∧ t = loadVariant .sha224 (clearError s)) ∨ (v = 1 ∧ t = loadVariant .sha256 (clearError s)) ∨
    ((v = 2 ∨ v = 3) ∧ t = ((s.setErr 1).setInitd false)) := by
  simp only [execInit] at h
  split at h
  · rename_i h0; cases h; exact .inl ⟨h0, rfl⟩
  · split at h
    · rename_i h1; cases h; exact .inr (.inl ⟨h1, rfl⟩)
    · rename_i h0 h1
      cases h
      refine .inr (.inr ⟨?_, rfl⟩)
      revert h0 h1
      revert v
      decide

theorem execRdb_next {i : Nat} {s t : State} (h : execRdb i s = .next t) :
    i < 64 ∧ t = s.setDout (zext32 (s.blk.get i)) := by
  simp only [execRdb, memRead1] at h
  by_cases hi : i < 64
  · rw [if_pos (by simpa using hi)] at h
    cases h; exact ⟨hi, rfl⟩
  · rw [if_neg (by simpa using hi)] at h
    cases h

theorem execRdh_next {j : Nat} {s t : State} (h : execRdh j s = .next t) :
    j < 8 ∧ t = s.setDout (s.h.word j) := by
  simp only [execRdh] at h
  split at h
  · rename_i hj; cases h; exact ⟨hj, rfl⟩
  · cases h

theorem execRdd_next {j : Nat} {s t : State} (h : execRdd j s = .next t) :
    (s.initd = false ∧ t = raiseError .notInitialised (s.setDout 0)) ∨
    (s.initd = true ∧ dlen s ≤ j ∧ t = raiseError .indexRange (s.setDout 0)) ∨
    (s.initd = true ∧ j < dlen s ∧ t = s.setDout (zext32 (digestByte s.h j))) := by
  simp only [execRdd] at h
  split at h
  · rename_i h1; cases h; exact .inl ⟨h1, rfl⟩
  · rename_i h1
    split at h
    · rename_i h2; cases h; exact .inr (.inl ⟨by simpa using h1, h2, rfl⟩)
    · rename_i h2; cases h; exact .inr (.inr ⟨by simpa using h1, by omega, rfl⟩)

theorem execComp_next {s t : State} (h : execComp s = .next t) :
    (s.initd = true ∧ t = compressionStart s) ∨ (s.initd = false ∧ t = raiseError .notInitialised s) := by
  simp only [execComp] at h
  split at h
  · rename_i h1; cases h; exact .inl ⟨h1, rfl⟩
  · rename_i h1; cases h; exact .inr ⟨by simpa using h1, rfl⟩

/-! ### What a step can do -/

theorem engineStep_next {s t : State} (h : engineStep s = .next t) :
    (s.round.toNat < 64 ∧ t = roundStep s) ∨ (s.round.toNat = 64 ∧ t = feedForwardStep s) := by
  simp only [engineStep] at h
  split at h
  · rename_i h1; cases h; exact .inl ⟨h1, rfl⟩
  · split at h
    · rename_i h2; cases h; exact .inr ⟨h2, rfl⟩
    · cases h

/-- Everything a step with these port inputs can do, its guards included (R313). -/
theorem topStep_next {p : PortInput} {s t : State} (h : topStep p s = .next t) :
    (p.rst = true ∧ t = resetAction s) ∨
    (p.rst = false ∧ s.busy = true ∧ s.round.toNat < 64 ∧ t = roundStep s) ∨
    (p.rst = false ∧ s.busy = true ∧ s.round.toNat = 64 ∧ t = feedForwardStep s) ∨
    (∃ i, p.rst = false ∧ s.busy = false ∧ p.cmdValid = true ∧ decode p.cmd p.din = .ok i ∧ exec i s = .next t) ∨
    (∃ e, p.rst = false ∧ s.busy = false ∧ p.cmdValid = true ∧ decode p.cmd p.din = .error e ∧
      t = raiseError .illegalCommand s) ∨
    (p.rst = false ∧ s.busy = false ∧ p.cmdValid = false ∧ t = s) := by
  simp only [topStep] at h
  cases hr : p.rst
  · simp only [hr, Bool.false_eq_true, if_false] at h
    split at h
    · cases h
    · cases hb : s.busy
      · simp only [hb, Bool.false_eq_true, if_false] at h
        cases hv : p.cmdValid
        · simp only [hv, Bool.false_eq_true, if_false] at h
          cases h; simp
        · simp only [hv, if_true, execute] at h
          cases hd : decode p.cmd p.din with
          | ok i => simp only [hd] at h; simp [h]
          | error e => simp only [hd, execIllegal] at h; cases h; simp
      · simp only [hb, if_true] at h
        rcases engineStep_next h with ⟨h1, h2⟩ | ⟨h1, h2⟩ <;> simp [h1, h2]
  · simp only [hr, if_true] at h
    cases h; simp

theorem not_reservedError {s : State} (h : s.err.toNat ≤ 4) : ¬reservedError s := by
  simp only [reservedError]; omega

theorem topStep_reset {p : PortInput} (s : State) (hr : p.rst = true) : topStep p s = .next (resetAction s) := by
  simp [topStep, hr]

theorem topStep_busy {p : PortInput} {s : State} (hr : p.rst = false) (he : s.err.toNat ≤ 4) (hb : s.busy = true) :
    topStep p s = engineStep s := by
  simp [topStep, hr, not_reservedError he, hb]

theorem topStep_execute {p : PortInput} {s : State} (hr : p.rst = false) (he : s.err.toNat ≤ 4)
    (hb : s.busy = false) (hv : p.cmdValid = true) : topStep p s = execute p.cmd p.din s := by
  simp [topStep, hr, not_reservedError he, hb, hv]

theorem topStep_idle {p : PortInput} {s : State} (hr : p.rst = false) (he : s.err.toNat ≤ 4)
    (hb : s.busy = false) (hv : p.cmdValid = false) : topStep p s = .next s := by
  simp [topStep, hr, not_reservedError he, hb, hv]

theorem engineStep_round {s : State} (h : s.round.toNat < 64) : engineStep s = .next (roundStep s) := if_pos h

theorem engineStep_feedForward {s : State} (h : s.round.toNat = 64) : engineStep s = .next (feedForwardStep s) := by
  simp [engineStep, h]

theorem execute_ok {c d : Word} {i : Instr} (s : State) (h : decode c d = .ok i) : execute c d s = exec i s := by
  simp [execute, h]

theorem execute_error {c d : Word} {e : DecodeError} (s : State) (h : decode c d = .error e) :
    execute c d s = .next (raiseError .illegalCommand s) := by
  simp [execute, h, execIllegal]

end Sys2Proof.Machine
end

