-- ==== Sys2Proof/Laws/Run.lean ====
section
/-! SUPPORT. Runs of several steps, and what `noReset` says of the steps of such a run. -/

namespace Sys2Proof.Machine

theorem runSteps_zero (s : State) : runSteps 0 s = .next s := rfl

theorem runSteps_succ {s t : State} (n : Nat) (h : step s = .next t) : runSteps (n + 1) s = runSteps n t := by
  simp [runSteps, Host.Core.run, core, h]

/-- A run whose first step gave a next state goes on from it. -/
theorem runSteps_succ_next {n : Nat} {s u : State} (h : runSteps (n + 1) s = .next u) :
    ∃ t, step s = .next t ∧ runSteps n t = .next u := by
  simp only [runSteps, Host.Core.run, core] at h ⊢
  cases hs : step s with
  | next t => exact ⟨t, rfl, by simpa only [hs] using h⟩
  | fault f => simp only [hs] at h; cases h
  | refused r => simp only [hs] at h; cases h

/-- A run in two parts. -/
theorem runSteps_add {a : Nat} (b : Nat) {s t : State} (h : runSteps a s = .next t) :
    runSteps (a + b) s = runSteps b t := by
  induction a generalizing s with
  | zero => rw [runSteps_zero] at h; cases h; rw [Nat.zero_add]
  | succ a ih =>
    obtain ⟨u, hu, h⟩ := runSteps_succ_next h
    rw [show a + 1 + b = (a + b) + 1 by omega, runSteps_succ _ hu, ih h]

theorem noReset_now {n : Nat} {s : State} (h : noReset (n + 1) s = true) : (portNow s).rst = false := by
  simp only [noReset, portNow] at *
  cases hp : s.port with
  | nil => rfl
  | cons p ps => simp [hp] at h ⊢; exact h.1

theorem noReset_mono {n k : Nat} {s : State} (h : noReset n s = true) (hk : k ≤ n) : noReset k s = true := by
  simp only [noReset, List.all_eq_true] at *
  exact fun p hp => h p (List.take_subset_take_left _ hk hp)

theorem noReset_drop {a b : Nat} {s t : State} (h : noReset (a + b) s = true) (hp : t.port = s.port.drop a) :
    noReset b t = true := by
  simp only [noReset, List.all_eq_true] at *
  intro p hm
  rw [hp, List.take_drop] at hm
  exact h p (List.mem_of_mem_drop hm)

end Sys2Proof.Machine
end

