-- ==== Sys2Proof/Laws/Schedule.lean ====
section
/-! SUPPORT. Lengths in the schedule expander (R122, R123) and the first unfoldings of the rounds (R165). -/

namespace Sys2Proof.Machine

theorem blockWords_length (m : Memory) : (blockWords m).length = 16 := by simp [blockWords]

theorem expandSchedule_length (n : Nat) (w : List Word) : (expandSchedule n w).length = w.length + n := by
  induction n generalizing w with
  | zero => rfl
  | succ n ih => rw [expandSchedule, ih]; simp; omega

theorem expandSchedule_prefix (n : Nat) (w : List Word) : ∃ l, expandSchedule n w = w ++ l := by
  induction n generalizing w with
  | zero => exact ⟨[], by simp [expandSchedule]⟩
  | succ n ih =>
    obtain ⟨l, hl⟩ := ih (w ++ [scheduleSum (w.getD (w.length - 16) 0) (w.getD (w.length - 15) 0)
      (w.getD (w.length - 7) 0) (w.getD (w.length - 2) 0)])
    exact ⟨_, by rw [expandSchedule, hl, List.append_assoc]⟩

/-- The schedule word, for proofs: `schedule` is irreducible, so that no unifier unfolds its 48 sums. -/
theorem scheduleWord_eq (m : Memory) (t : Nat) : scheduleWord m t = (expandSchedule 48 (blockWords m)).getD t 0 := by
  rw [scheduleWord, schedule]

theorem rounds_eq (hin : Words8) (m : Memory) : rounds hin m = roundsUpTo hin (schedule m) 64 := by rw [rounds]

@[simp] theorem roundsUpTo_zero (hin : Words8) (w : List Word) : roundsUpTo hin w 0 = hin := rfl

theorem roundsUpTo_succ (hin : Words8) (w : List Word) (t : Nat) :
    roundsUpTo hin w (t + 1) = roundFn (roundsUpTo hin w t) (kRom t) (w.getD t 0) := rfl

end Sys2Proof.Machine
end

