-- ==== Sys2Proof/Tests/Slice0.lean ====
section
/-! SUPPORT. Tests and witnesses. Every expected value is from spec/95_test_vectors.md ("V" and a section number), or
written out by hand from the rule named. The witnesses show states and operands that meet the hypotheses of each
statement of Certificates/Slice0/Obligations.lean. -/

namespace Sys2Proof.Tests

open Sys2Proof.Machine

-- One theorem at a time: the evaluations below, each in a thread of its own, would take much memory together.
set_option Elab.async false

/-- The next state of an outcome, if it has one. -/
def nextOf : Host.Outcome State Fault Refusal → Option State
  | .next t => some t
  | .fault _ => none
  | .refused _ => none

/-! ### States -/

/-- After `INIT sha224` from reset. -/
def ready224 : State := { State.reset with h := iv224, var := .sha224, initd := true }

/-- After `INIT sha256` from reset. -/
def ready256 : State := { State.reset with h := iv256, var := .sha256, initd := true }

/-- A core with bytes in BLK, ERR = 4 and a value in DOUT, initialised. -/
def worn : State :=
  { ready256 with err := 4, dout := 0x12345678, blk := [(0, 0x61), (1, 0x62), (2, 0x63), (3, 0x80), (63, 0x18)] }

/-- `worn` with a compression at round `r` under way. -/
def running (r : BitVec 7) : State := { worn with busy := true, wk := iv256, round := r }

/-- A state whose next steps get these port inputs. -/
def driven (s : State) (ps : List PortInput) : State := { s with port := ps }

/-- The 64 bytes of the padded message "abc" (V1.5). -/
def abcBlock : List Byte := [0x61, 0x62, 0x63, 0x80] ++ List.replicate 59 0 ++ [0x18]

/-! ### WellFormed smoke: an ill-formed term for each check (R81) -/

theorem test_wellFormed_wrb : wellFormed (.wrb 64 0) = false ∧ wellFormed (.wrb 63 0xFF) = true := by decide
theorem test_wellFormed_wrw : wellFormed (.wrw 16 0) = false ∧ wellFormed (.wrw 15 0xFFFFFFFF) = true := by decide
theorem test_wellFormed_rdb : wellFormed (.rdb 64) = false ∧ wellFormed (.rdb 63) = true := by decide
theorem test_wellFormed_rdh : wellFormed (.rdh 8) = false ∧ wellFormed (.rdh 7) = true := by decide
theorem test_wellFormed_rdd : wellFormed (.rdd 32) = false ∧ wellFormed (.rdd 31) = true := by decide

/-! ### Decoding: words written out from R72 and R77, field by field -/

theorem test_decode_nop : decode 0b0000_000000_000000_00000000000000_00#32 0xFFFFFFFF = .ok .nop := by decide
theorem test_decode_init : decode 0b0001_000000_000000_00000000000000_11#32 0xFFFFFFFF = .ok (.init 3) := by decide
theorem test_decode_wrb : decode 0b0010_000000_111110_00000000000000_00#32 0xFFFFFF12 = .ok (.wrb 62 0x12) := by decide
theorem test_decode_wrw : decode 0b0011_000000_001101_00000000000000_00#32 0x61626380 = .ok (.wrw 13 0x61626380) := by
  decide
theorem test_decode_comp : decode 0b0100_000000_000000_00000000000000_00#32 0 = .ok .comp := by decide
theorem test_decode_rdb : decode 0b0101_000000_100001_00000000000000_00#32 0 = .ok (.rdb 33) := by decide
theorem test_decode_rdh : decode 0b0110_000000_000110_00000000000000_00#32 0 = .ok (.rdh 6) := by decide
theorem test_decode_rdd : decode 0b0111_000000_011100_00000000000000_00#32 0 = .ok (.rdd 28) := by decide
theorem test_decode_rds : decode 0b1000_000000_000000_00000000000000_00#32 0 = .ok .rds := by decide
theorem test_decode_clrerr : decode 0b1001_000000_000000_00000000000000_00#32 0 = .ok .clrerr := by decide

/-- V7's illegal words, by the kinds of R78. -/
theorem test_decode_illegal :
    decode 0xA0000000 0 = .error .reservedOpcode ∧ decode 0xF0000000 0 = .error .reservedOpcode ∧
    decode 0x02000000 0 = .error .reservedZ1 ∧ decode 0x20400000 0 = .error .reservedZ1 ∧
    decode 0x50400000 0 = .error .reservedZ1 ∧ decode 0x10000004 0 = .error .reservedZ2 ∧
    decode 0x20008000 0 = .error .reservedZ2 ∧ decode 0x30000004 0 = .error .reservedZ2 ∧
    decode 0x00000001 0 = .error .reservedVar ∧ decode 0x40000001 0 = .error .reservedVar ∧
    decode 0x80000001 0 = .error .reservedVar ∧ decode 0x30100000 0 = .error .reservedIdx ∧
    decode 0x60080000 0 = .error .reservedIdx ∧ decode 0x70200000 0 = .error .reservedIdx := by decide

theorem test_illegalWord : illegalWord 0x40000001 = true ∧ illegalWord 0x203F0000 = false := by decide

/-- The host's view: the data word is bits 63..32, and bits the table does not give are 0 (R71). -/
theorem test_decodeTableWord :
    decodeTableWord 64 0x00000018300F0000 = some (.wrw 15 0x18) ∧ decodeTableWord 32 0x300F0000 = some (.wrw 15 0) ∧
    decodeTableWord 32 0xA0000000 = none := by decide

theorem test_withFetchWord :
    (nextOf (step (State.reset.withFetchWord 32 0x10000001))).map status = some 0x00002003 := by decide

/-! ### Codec, functions and tables -/

/-- V2. -/
theorem test_codec :
    bytesToWord 0x61 0x62 0x63 0x80 = 0x61626380 ∧ wordToBytes 0x6A09E667 = (0x6A, 0x09, 0xE6, 0x67) ∧
    rotr 0x12345678 31 = 0x2468ACF0 ∧ shr 0xFFFFFFFF 10 = 0x003FFFFF := by decide

/-- V2. -/
theorem test_sigmas :
    smallSigma0 0x12345678 = 0xE7FCE6EE ∧ smallSigma1 0x12345678 = 0xA1F78649 ∧
    bigSigma0 0x12345678 = 0x66146474 ∧ bigSigma1 0x12345678 = 0x3561ABDA := by decide

/-- V4.1. -/
theorem test_ch_maj :
    ch 0x510E527F 0x9B05688C 0x1F83D9AB = 0x1F85C98C ∧ maj 0x6A09E667 0xBB67AE85 0x3C6EF372 = 0x3A6FE667 := by decide

/-- V5, round 0 of "abc". -/
theorem test_adders :
    t1Sum 0x5BE0CD19 0x3587272B 0x1F85C98C 0x428A2F98 0x61626380 = 0x54DA50E8 ∧
    t2Sum 0xCE20B47E 0x3A6FE667 = 0x08909AE5 ∧ newA 0x54DA50E8 0x08909AE5 = 0x5D6AEBCD ∧
    newE 0xA54FF53A 0x54DA50E8 = 0xFA2A4622 := by decide

/-- V6: the checks that the tables were entered correctly. -/
theorem test_tables :
    kTable.length = 64 ∧ kTable.foldl (· ^^^ ·) 0 = 0x95C49CF5 ∧ kTable.foldl (· + ·) 0 = 0x941D1755 ∧
    ((List.range 8).map iv256.word).foldl (· + ·) 0 = 0x6EA8DF67 ∧
    ((List.range 8).map iv224.word).foldl (· + ·) 0 = 0xAB0DA9BC := by decide +kernel

/-- V3, the schedule of the padded "abc" block. -/
theorem test_schedule :
    (schedule (blockBuffer abcBlock)).drop 56 =
      [0xEF57B9CD, 0xEBE6B238, 0x9FE3095E, 0x78BC8D4B, 0xA43FCF15, 0x668B2FF8, 0xEEABA2CC, 0x12B1EDEB] := by
  decide +kernel

/-- V3, the all-FF block at 16 and 63. -/
theorem test_schedule_ones :
    (scheduleWord (blockBuffer (List.replicate 64 0xFF)) 16, scheduleWord (blockBuffer (List.replicate 64 0xFF)) 63) =
      (0x203FFFFC, 0x4BCEAF09) := by
  decide +kernel

/-- V4.3, the all-ones corner case: wrap in every adder. -/
theorem test_compress_ones :
    compress ⟨0xFFFFFFFF, 0xFFFFFFFF, 0xFFFFFFFF, 0xFFFFFFFF, 0xFFFFFFFF, 0xFFFFFFFF, 0xFFFFFFFF, 0xFFFFFFFF⟩
        (blockBuffer (List.replicate 64 0xFF)) =
      ⟨0x0598127A, 0xAF11706E, 0x77401FFF, 0xD730C549, 0x0B84C867, 0xA98C6CA3, 0xD7F3C0F9, 0x06A78B79⟩ := by
  decide +kernel

/-- V1.1: the digest of the empty message, SHA-256. -/
theorem test_digest_empty_256 :
    digest .sha256 [] =
      [0xe3, 0xb0, 0xc4, 0x42, 0x98, 0xfc, 0x1c, 0x14, 0x9a, 0xfb, 0xf4, 0xc8, 0x99, 0x6f, 0xb9, 0x24] ++
      [0x27, 0xae, 0x41, 0xe4, 0x64, 0x9b, 0x93, 0x4c, 0xa4, 0x95, 0x99, 0x1b, 0x78, 0x52, 0xb8, 0x55] := by
  decide +kernel

/-- V1.2: the digest of the empty message, SHA-224. -/
theorem test_digest_empty_224 :
    digest .sha224 [] =
      [0xd1, 0x4a, 0x02, 0x8c, 0x2a, 0x3a, 0x2b, 0xc9, 0x47, 0x61, 0x02, 0xbb, 0x28, 0x82] ++
      [0x34, 0xc4, 0x15, 0xa2, 0xb0, 0x1f, 0x82, 0x8e, 0xa6, 0x2a, 0xc5, 0xb3, 0xe4, 0x2f] := by
  decide +kernel

/-- V1.5, V8: padding of "abc", and of 55 and 56 bytes. -/
theorem test_pad :
    pad [0x61, 0x62, 0x63] = abcBlock ∧ (pad (List.replicate 55 0x61)).drop 55 = [0x80, 0, 0, 0, 0, 0, 0, 1, 0xB8] ∧
    (pad (List.replicate 56 0x61)).drop 120 = [0, 0, 0, 0, 0, 0, 1, 0xC0] := by decide +kernel

/-! ### One step of each command (V7) -/

/-- V7.18. -/
theorem test_nop : nextOf (execute 0x00000000 0xFFFFFFFF worn) = some worn := by decide

/-- V7.2. -/
theorem test_init_sha256 :
    (nextOf (execute 0x10000001 0 State.reset)).map (fun t => (t.h.a, t.h.h, status t)) =
      some (0x6A09E667, 0x5BE0CD19, 0x00002003) := by decide

/-- V7.6. -/
theorem test_init_unsupported :
    (nextOf (execute 0x10000002 0 ready256)).map (fun t => (t.h.a, status t)) = some (0x6A09E667, 0x00000012) := by decide

/-- V7.8, and a byte made 0 again leaves the list (log 7). -/
theorem test_wrb :
    (nextOf (execute 0x20010000 0xFFFFFF12 State.reset)).map (·.blk) = some [(1, 0x12)] ∧
    (nextOf (execute 0x203F0000 0xFFFFFF00 worn)).map (·.blk) = some [(0, 0x61), (1, 0x62), (2, 0x63), (3, 0x80)] := by
  decide

/-- R214's example, and lane 0 at the lowest address. -/
theorem test_wrw :
    (nextOf (execute 0x300F0000 0x00000018 State.reset)).map (·.blk) = some [(63, 0x18)] ∧
    (nextOf (execute 0x30010000 0x01020304 State.reset)).map (·.blk) = some [(4, 1), (5, 2), (6, 3), (7, 4)] := by decide

/-- V7.10. -/
theorem test_comp_uninitialised :
    (nextOf (execute 0x40000000 0 State.reset)).map (fun t => (status t, t.busy)) = some (0x00000040, false) := by decide

/-- V4.4, the accepting step; ERR = 4 does not gate it (R283). -/
theorem test_comp_start :
    (nextOf (execute 0x40000000 0 worn)).map (fun t => (t.busy, t.round, t.wk, t.h)) = some (true, 0, iv256, iv256) := by
  decide

/-- V7.7. -/
theorem test_rdb :
    (nextOf (execute 0x50030000 0 worn)).map (·.dout) = some 0x00000080 ∧
    (nextOf (execute 0x50000000 0 worn)).map (·.dout) = some 0x00000061 := by decide

/-- V7.4, V7.9. -/
theorem test_rdh :
    (nextOf (execute 0x60070000 0 ready224)).map (·.dout) = some 0xBEFA4FA4 ∧
    (nextOf (execute 0x60050000 0 State.reset)).map (·.dout) = some 0 := by decide

/-- V7.11, V7.12. -/
theorem test_rdd_errors :
    (nextOf (execute 0x701E0000 0 State.reset)).map (fun t => (t.dout, status t)) = some (0, 0x00000040) ∧
    (nextOf (execute 0x701C0000 0 ready224)).map (fun t => (t.dout, status t)) = some (0, 0x00001C31) := by decide

/-- R57: byte 27 is the last byte of `H[6]`, byte 31 the last of `H[7]` (R144, R145). -/
theorem test_rdd_last :
    (nextOf (execute 0x701B0000 0 ready224)).map (·.dout) = some 0xA7 ∧
    (nextOf (execute 0x701F0000 0 ready256)).map (·.dout) = some 0x19 := by decide

/-- V7.1, V7.3. -/
theorem test_rds :
    (nextOf (execute 0x80000000 0 State.reset)).map (·.dout) = some 0 ∧
    (nextOf (execute 0x80000000 0 ready224)).map (·.dout) = some 0x00001C01 := by decide

/-- V7.14: from ERR = 4, with INITD kept. -/
theorem test_clrerr : (nextOf (execute 0x90000000 0 worn)).map status = some 0x00002003 := by decide

/-- R221's example, and V7.12: a later error is not recorded. -/
theorem test_illegal :
    (nextOf (execute 0xA0000000 0 ready256)).map (·.err) = some 2 ∧ nextOf (execute 0xF0000000 0 worn) = some worn := by
  decide

/-! ### The engine, and reset -/

/-- V4.4, engine step 1 on the padded empty message. -/
theorem test_round_step :
    (nextOf (step { running 0 with blk := [(0, 0x80)] })).map (fun t => (t.round, t.wk, t.h.a)) =
      some (1, ⟨0x7C08884D, 0x6A09E667, 0xBB67AE85, 0x3C6EF372, 0x18C7E2A2, 0x510E527F, 0x9B05688C, 0x1F83D9AB⟩,
        0x6A09E667) := by
  decide +kernel

/-- V5, feed-forward carry isolation. -/
theorem test_feed_forward :
    (nextOf (step { running 64 with h := ⟨0, 0xFFFFFFFF, 0, 0, 0, 0, 0, 0⟩, wk := ⟨0, 1, 0, 0, 0, 0, 0, 0⟩ })).map
      (fun t => (t.h, t.busy, t.round)) = some (Words8.zero, false, 0) := by decide

/-- V7.17: reset while busy. -/
theorem test_reset_while_busy :
    nextOf (step (driven (running 10) [PortInput.reset])) = some State.reset := by decide

/-! ### The assembler (R81) -/

theorem test_assemble :
    assembleText "  WRW 15, 0x00000018 ; the length".toList = some [(0x300F0000, 0x00000018)] ∧
    assembleText "INIT sha256".toList = some [(0x10000001, 0)] ∧
    assembleText ".cmd 0xA0000000, 0".toList = some [(0xA0000000, 0)] ∧
    assembleText "; nothing".toList = some [] := by decide +kernel

theorem test_assemble_errors :
    assembleText "WRB 64, 0".toList = none ∧ assembleText "WRB 0, 256".toList = none ∧
    assembleText "RDD 32".toList = none ∧ assembleText "RDDIG 30".toList = none ∧
    assembleText "FOO 1".toList = none := by decide +kernel

/-! ### Witnesses: the hypotheses of each statement can be met together -/

theorem witness_DecodeEncodeAgree :
    ∀ i ∈ [Instr.nop, .init 3, .wrb 63 0xFF, .wrw 15 0xFFFFFFFF, .comp, .rdb 63, .rdh 7, .rdd 31, .rds, .clrerr],
      wellFormed i = true := by decide

theorem witness_DecodedWordReencodes :
    decode 0x203F0000 0xFFFFFF80 = .ok (.wrb 63 0x80) ∧ decode 0x300F0000 0xFFFFFF80 = .ok (.wrw 15 0xFFFFFF80) ∧
    decode 0x701F0000 0xFFFFFF80 = .ok (.rdd 31) := by decide

theorem witness_OpcodeMapDecides :
    decode 0x10000003 0 = .ok (.init 3) ∧
    (⟨"RDD", 0x70000000, 0xFFE0FFFF⟩ : OpRow) ∈ opcodeMap ∧ (0x701F0000 : Word) &&& 0xFFE0FFFF = 0x70000000 := by decide

theorem witness_DataBusReadOnlyByWrites :
    ((splitFields 0x701F0000).op ≠ 2 ∧ (splitFields 0x701F0000).op ≠ 3) ∧
    ((splitFields 0x203F0000).op = 2 ∧
      (0xFFFFFF12 : Word).extractLsb' 0 8 = (0x00000012 : Word).extractLsb' 0 8 ∧ (0xFFFFFF12 : Word) ≠ 0x00000012) := by
  decide

theorem witness_IllegalWordsRecordIllegalCommand : ∃ e, decode 0x40000001 0 = .error e := ⟨.reservedVar, by decide⟩

theorem witness_StepRunsAcceptedCommand :
    let p := PortInput.offer 0x701F0000 0
    (driven worn [p]).port = p :: [] ∧ p.rst = false ∧ p.cmdValid = true ∧ (driven worn [p]).busy = false ∧
      (driven worn [p]).err.toNat ≤ 4 ∧ decode p.cmd p.din = .ok (.rdd 31) := by decide

theorem witness_StepRecordsIllegalWord :
    let p := PortInput.offer 0x40000001 0
    (driven worn [p]).port = p :: [] ∧ p.rst = false ∧ p.cmdValid = true ∧ (driven worn [p]).busy = false ∧
      (driven worn [p]).err.toNat ≤ 4 ∧ decode p.cmd p.din = .error .reservedVar := by decide

theorem witness_PortInputsGoByOneAStep :
    (∃ t, exec (.rdh 7) worn = .next t) ∧ (∃ t, step (driven worn [PortInput.offer 0x60070000 0]) = .next t) ∧
    (driven worn [PortInput.reset]).port = PortInput.reset :: [] ∧ worn.port = [] :=
  ⟨⟨_, rfl⟩, ⟨_, rfl⟩, rfl, rfl⟩

theorem witness_IdleStepsChangeNothing :
    let s := driven worn [PortInput.quiet, PortInput.quiet, PortInput.reset]
    s.busy = false ∧ s.err.toNat ≤ 4 ∧ ∀ p ∈ s.port.take 2, p.rst = false ∧ p.cmdValid = false := by decide

theorem witness_ResetSetsEveryElement :
    let s := driven (running 10) [PortInput.reset, { PortInput.offer 0x40000000 0 with rst := true }]
    1 < s.port.length ∧ ∀ p ∈ s.port.take 2, p.rst = true := by decide

theorem worn_inv : Inv worn := ⟨by decide, by decide, by decide, by decide, by decide⟩

theorem running_inv : Inv (running 63) ∧ Inv (running 64) :=
  ⟨⟨by decide, by decide, by decide, by decide, by decide⟩, ⟨by decide, by decide, by decide, by decide, by decide⟩⟩

theorem witness_StepKeepsControlInvariant : ∃ t, Inv (running 64) ∧ step (running 64) = .next t :=
  ⟨_, running_inv.2, rfl⟩

theorem witness_StepKeepsEngineInvariant : ∃ t, Inv (running 0) ∧ EngineInv (running 0) ∧ step (running 0) = .next t :=
  ⟨_, ⟨by decide, by decide, by decide, by decide, by decide⟩, fun _ => rfl, rfl⟩

theorem witness_CoreNeverStops : Inv (running 64) := running_inv.2

theorem witness_CommandsCompleteAndUnencodableStop :
    decode 0x503F0000 0 = .ok (.rdb 63) ∧ decode 0x60070000 0 = .ok (.rdh 7) ∧ 64 ≤ 64 ∧ 16 ≤ 16 ∧ 8 ≤ 8 ∧
    32 ≤ 32 := by decide

theorem witness_UnreachableStatesFault :
    ((portNow { worn with err := 5 }).rst = false ∧ 4 < ({ worn with err := 5 } : State).err.toNat) ∧
    ((portNow (running 65)).rst = false ∧ (running 65).err.toNat ≤ 4 ∧ (running 65).busy = true ∧
      64 < (running 65).round.toNat) := by decide

theorem witness_WrbStoresOneByte : 63 < 64 ∧ Memory.wf worn.blk = true := by decide

theorem witness_WrwStoresFourBytes :
    15 < 16 ∧ Memory.wf worn.blk = true ∧
    ((0x30100000 : Word).extractLsb' 28 4 = 3 ∧ (0x30100000 : Word).extractLsb' 20 2 ≠ 0) := by decide

theorem witness_CompStartsCompression : worn.initd = true := by decide

theorem witness_CompNetEffect :
    State.reset.initd = false ∧
    (worn.initd = true ∧ worn.err.toNat ≤ 4 ∧ noReset 65 (driven worn [PortInput.offer 0x40000000 0]) = true ∧
      ∃ t, exec .comp (driven worn [PortInput.offer 0x40000000 0]) = .next t) :=
  ⟨by decide, by decide, by decide, by decide, _, rfl⟩

theorem witness_RdbReadsOneByte : 63 < 64 := by decide

theorem witness_RdhReadsOneWord : 7 < 8 := by decide

/-- Each clause at the boundary of its range. -/
theorem witness_RddReadsDigestByte :
    (0 < 32 ∧ State.reset.initd = false) ∧
    (28 < 32 ∧ ready224.initd = true ∧ ready224.var = .sha224 ∧ 28 ≤ 28) ∧
    (27 < 32 ∧ ready224.initd = true ∧ (ready224.var = .sha256 ∨ 27 < 28)) ∧
    (31 < 32 ∧ ready256.initd = true ∧ (ready256.var = .sha256 ∨ 31 < 28)) := by decide

theorem witness_FirstErrorIsKept : State.reset.err = 0 ∧ worn.err ≠ 0 ∧ PortInput.reset.rst = true := by decide

theorem witness_ErrorGatesNoCommand : (∃ t, exec (.rdd 31) worn = .next t) ∧ Instr.rdd 31 ≠ .rds :=
  ⟨⟨_, rfl⟩, by decide⟩

/-- One word for each clause, with ERR = 0. -/
theorem witness_ErrorPriority :
    State.reset.err = 0 ∧ ready224.err = 0 ∧ decode 0x40000001 0 = .error .reservedVar ∧ decode 0x40000000 0 = .ok .comp ∧
    decode 0x701E0000 0 = .ok (.rdd 30) ∧ decode 0x10000002 0 = .ok (.init 2) ∧ decode 0x80000000 0 = .ok .rds := by decide

theorem witness_ChainingStateWriters :
    (∃ t, step (running 64) = .next t ∧ t.h ≠ (running 64).h) ∧
    (∃ t, step (driven worn [PortInput.offer 0x10000000 0]) = .next t ∧ t.h ≠ worn.h) :=
  ⟨⟨_, rfl, by decide⟩, ⟨_, rfl, by decide⟩⟩

theorem witness_VariantAndInitialisedWriters :
    (∃ t, step (driven worn [PortInput.offer 0x10000000 0]) = .next t ∧ t.var ≠ worn.var) ∧
    (∃ t, step (driven State.reset [PortInput.offer 0x10000001 0]) = .next t ∧
      State.reset.initd = false ∧ t.initd = true) ∧
    (∃ t, step (driven worn [PortInput.offer 0x10000002 0]) = .next t ∧ worn.initd = true ∧ t.initd = false) :=
  ⟨⟨_, rfl, by decide⟩, ⟨_, rfl, by decide, by decide⟩, ⟨_, rfl, by decide, by decide⟩⟩

theorem witness_ErrorWriters :
    ∃ t, step (driven worn [PortInput.offer 0x90000000 0]) = .next t ∧ worn.err ≠ 0 ∧ t.err ≠ worn.err :=
  ⟨_, rfl, by decide, by decide⟩

theorem witness_OutputRegisterWriters :
    ∃ t, step (driven worn [PortInput.offer 0x60070000 0]) = .next t ∧ t.dout ≠ worn.dout := ⟨_, rfl, by decide⟩

theorem witness_BlockBufferWriters :
    Memory.wf worn.blk = true ∧
    ∃ t, step (driven worn [PortInput.offer 0x300F0000 0x01020304]) = .next t ∧ t.blk.get 63 ≠ worn.blk.get 63 :=
  ⟨by decide, _, rfl, by decide⟩

theorem witness_BusyWriters :
    (∃ t, step (driven worn [PortInput.offer 0x40000000 0]) = .next t ∧ worn.busy = false ∧ t.busy = true) ∧
    (∃ t, step (running 64) = .next t ∧ (running 64).busy = true ∧ t.busy = false) :=
  ⟨⟨_, rfl, by decide, by decide⟩, ⟨_, rfl, by decide, by decide⟩⟩

theorem witness_BusyCoreIgnoresPort :
    (running 0).busy = true ∧ (PortInput.offer 0x10000001 0).rst = PortInput.quiet.rst ∧
    PortInput.offer 0x10000001 0 ≠ PortInput.quiet := by decide

theorem witness_ReadsAndWritesAreIdempotent :
    Memory.wf worn.blk = true ∧
    (Instr.wrw 15 1 = .rds ∨ ∃ k, Instr.wrw 15 1 = .rdb k ∨ Instr.wrw 15 1 = .rdh k ∨ Instr.wrw 15 1 = .rdd k ∨
      (∃ b, Instr.wrw 15 1 = .wrb k b) ∨ ∃ w, Instr.wrw 15 1 = .wrw k w) ∧
    ∃ t, exec (.wrw 15 1) worn = .next t :=
  ⟨by decide, .inr ⟨15, .inr (.inr (.inr (.inr ⟨1, rfl⟩)))⟩, _, rfl⟩

theorem witness_MixedWidthViews : 15 < 16 ∧ 3 < 4 ∧ Memory.wf worn.blk = true := by decide

theorem witness_RotationBits : 0 < 31 ∧ 31 < 32 := by decide

theorem witness_ScheduleRecurrence : 15 < 16 ∧ (16 ≤ 16 ∧ 16 < 64) ∧ (16 ≤ 63 ∧ 63 < 64) := by decide

theorem witness_SlidingWindowGivesSchedule : (16 ≤ 16 ∧ 16 < 64) ∧ (16 ≤ 63 ∧ 63 < 64) ∧ 15 < 16 := by decide

theorem witness_ChooseAndMajorityBits : 31 < 32 := by decide

theorem witness_RoundStepWritesWkAndRound :
    (PortInput.offer 0x10000001 0).rst = false ∧ (running 63).err.toNat ≤ 4 ∧ (running 63).busy = true ∧
    (running 63).round.toNat < 64 := by decide

theorem witness_FeedForwardAddsSnapshot :
    (PortInput.offer 0x10000001 0).rst = false ∧ (running 64).err.toNat ≤ 4 ∧ (running 64).busy = true ∧
    (running 64).round = 64 := by decide

theorem witness_SixtyFiveStepsEqualAtomicCompression :
    worn.initd = true ∧ worn.err.toNat ≤ 4 ∧ noReset 65 (driven worn [PortInput.offer 0x10000001 0]) = true ∧
    ∃ t, exec .comp (driven worn [PortInput.offer 0x10000001 0]) = .next t := ⟨by decide, by decide, by decide, _, rfl⟩

theorem witness_CompressionEnds :
    Inv (running 63) ∧ (running 63).busy = true ∧ noReset (65 - (running 63).round.toNat) (running 63) = true :=
  ⟨running_inv.1, by decide, by decide⟩

theorem witness_RoundConstantsAreCubeRootFractions : 63 < 64 := by decide

theorem witness_InitialValuesAreSquareRootFractions : 7 < 8 := by decide

theorem witness_LdblkLoadsBlock : Inv worn ∧ worn.busy = false ∧ abcBlock.length = 64 :=
  ⟨worn_inv, by decide, by decide⟩

theorem witness_HostSequenceComputesDigest : Inv (running 63) ∧ Inv worn := ⟨running_inv.1, worn_inv⟩

/-- Each clause at the boundary of its range; the clauses without a hypothesis need no witness. -/
theorem witness_AssemblerChecksRanges :
    (29 ≠ 28 ∧ 29 ≠ 32) ∧ (List.replicate 63 (0 : Byte)).length ≠ 64 ∧
    wellFormed (.rdd 31) = true ∧ wellFormed (.rdd 32) = false := by decide

theorem witness_CoresAreIndependent :
    ∃ q, platformStep 1 [worn, driven State.reset [PortInput.offer 0x10000001 0], running 3] = .next q ∧ 0 ≠ 1 ∧
      [worn, driven State.reset [PortInput.offer 0x10000001 0], running 3][1]? =
        some (driven State.reset [PortInput.offer 0x10000001 0]) :=
  ⟨_, rfl, by decide, rfl⟩

end Sys2Proof.Tests
end

section
/-! SUPPORT. What each command and each step does, as inductive relations with one constructor for each case
(`CommandEffect`, `StepEffect`) and one inversion lemma each (`exec_effect`, `step_effect`); from them the statements of
10_state.md: the invariants, who writes which element, the fields of STATUS and the independence of cores. -/

namespace Sys2Proof.Machine

/-! ### Recording an error -/

/-- The value of ERR once an error is recorded: the first error since the last clear is kept (R282). -/
def recordedError (e : CmdError) (s : State) : BitVec 4 := if s.err = 0 then e.code else s.err

theorem raiseError_eq_setErr (e : CmdError) (s : State) : raiseError e s = s.setErr (recordedError e s) :=
  raiseError_eq e s

theorem recordedError_of_error {s : State} (e : CmdError) (h : s.err ≠ 0) : recordedError e s = s.err := if_neg h

theorem CmdError.code_le (e : CmdError) : e.code.toNat ≤ 4 := by cases e <;> decide

theorem recordedError_eq_or_le (e : CmdError) (s : State) :
    recordedError e s = s.err ∨ (recordedError e s).toNat ≤ 4 := by
  by_cases h : s.err = 0
  · rw [recordedError, if_pos h]
    exact .inr e.code_le
  · exact .inl (recordedError_of_error e h)

/-! ### What a command does: its effects, one constructor each, with their guards -/

/-- `CommandEffect s i t`: the command `i` completes in state `s` and leaves `t` (R211 to R220). -/
inductive CommandEffect (s : State) : Instr → State → Prop where
  | nop : CommandEffect s .nop s
  | initSha224 : CommandEffect s (.init 0) (loadVariant .sha224 (clearError s))
  | initSha256 : CommandEffect s (.init 1) (loadVariant .sha256 (clearError s))
  | initUnsupported {v : BitVec 2} (hv : v = 2 ∨ v = 3) : CommandEffect s (.init v) ((s.setErr 1).setInitd false)
  | wrb {i : Nat} {b : Byte} (hi : i < 64) : CommandEffect s (.wrb i b) (s.setBlk (s.blk.set i b))
  | wrw {i : Nat} {w : Word} (hi : i < 16) : CommandEffect s (.wrw i w) (s.setBlk (s.blk.setWord (4 * i) w))
  | compStart (hi : s.initd = true) : CommandEffect s .comp (compressionStart s)
  | compError (hi : s.initd = false) : CommandEffect s .comp (s.setErr (recordedError .notInitialised s))
  | rdb {i : Nat} (hi : i < 64) : CommandEffect s (.rdb i) (s.setDout (zext32 (s.blk.get i)))
  | rdh {j : Nat} (hj : j < 8) : CommandEffect s (.rdh j) (s.setDout (s.h.word j))
  | rdd {j : Nat} (hi : s.initd = true) (hj : j < dlen s) :
      CommandEffect s (.rdd j) (s.setDout (zext32 (digestByte s.h j)))
  | rddNotInitialised {j : Nat} (hi : s.initd = false) :
      CommandEffect s (.rdd j) ((s.setDout 0).setErr (recordedError .notInitialised s))
  | rddIndexRange {j : Nat} (hi : s.initd = true) (hj : dlen s ≤ j) :
      CommandEffect s (.rdd j) ((s.setDout 0).setErr (recordedError .indexRange s))
  | rds : CommandEffect s .rds (s.setDout (status s))
  | clrerr : CommandEffect s .clrerr (clearError s)

/-- A command that completes has one of the effects of `CommandEffect`. -/
theorem exec_effect {i : Instr} {s t : State} (h : exec i s = .next t) : CommandEffect s i t := by
  cases i with
  | nop => cases h; exact .nop
  | init v =>
    obtain ⟨rfl, rfl⟩ | ⟨rfl, rfl⟩ | ⟨hv, rfl⟩ := execInit_next h
    · exact .initSha224
    · exact .initSha256
    · exact .initUnsupported hv
  | wrb i b =>
    obtain ⟨hi, rfl⟩ := memWrite1_next h
    exact .wrb hi
  | wrw i w =>
    obtain ⟨hi, rfl⟩ := memWrite4_next h
    exact .wrw (by simp only [wordAddress] at hi; omega)
  | comp =>
    obtain ⟨hi, rfl⟩ | ⟨hi, rfl⟩ := execComp_next h
    · exact .compStart hi
    · rw [raiseError_eq_setErr]
      exact .compError hi
  | rdb i =>
    obtain ⟨hi, rfl⟩ := execRdb_next h
    exact .rdb hi
  | rdh j =>
    obtain ⟨hj, rfl⟩ := execRdh_next h
    exact .rdh hj
  | rdd j =>
    obtain ⟨hi, rfl⟩ | ⟨hi, hj, rfl⟩ | ⟨hi, hj, rfl⟩ := execRdd_next h
    · rw [raiseError_eq_setErr]
      exact .rddNotInitialised hi
    · rw [raiseError_eq_setErr]
      exact .rddIndexRange hi hj
    · exact .rdd hi hj
  | rds => cases h; exact .rds
  | clrerr => cases h; exact .clrerr

/-! ### Which commands write an element -/

namespace CommandEffect

variable {s t : State} {i : Instr}

/-- H and VAR are written by a successful INIT only. -/
theorem chaining_frame (e : CommandEffect s i t) : (t.h = s.h ∧ t.var = s.var) ∨ i = .init 0 ∨ i = .init 1 := by
  cases e with
  | initSha224 => exact .inr (.inl rfl)
  | initSha256 => exact .inr (.inr rfl)
  | _ => exact .inl ⟨rfl, rfl⟩

/-- INITD is written by INIT only: a successful one sets it, a failing one clears it. -/
theorem initd_cases (e : CommandEffect s i t) :
    t.initd = s.initd ∨ (t.initd = true ∧ (i = .init 0 ∨ i = .init 1)) ∨
      (t.initd = false ∧ (i = .init 2 ∨ i = .init 3)) := by
  cases e with
  | initSha224 => exact .inr (.inl ⟨rfl, .inl rfl⟩)
  | initSha256 => exact .inr (.inl ⟨rfl, .inr rfl⟩)
  | initUnsupported hv => exact .inr (.inr ⟨rfl, hv.imp (congrArg Instr.init) (congrArg Instr.init)⟩)
  | _ => exact .inl rfl

/-- A recorded error is changed by INIT and CLRERR only. -/
theorem err_frame (e : CommandEffect s i t) (h : s.err ≠ 0) :
    t.err = s.err ∨ i = .clrerr ∨ ∃ v, i = .init v := by
  cases e with
  | initSha224 | initSha256 | initUnsupported => exact .inr (.inr ⟨_, rfl⟩)
  | clrerr => exact .inr (.inl rfl)
  | compError | rddNotInitialised | rddIndexRange => exact .inl (recordedError_of_error _ h)
  | _ => exact .inl rfl

/-- A command leaves ERR or writes a code of R281. -/
theorem err_eq_or_le (e : CommandEffect s i t) : t.err = s.err ∨ t.err.toNat ≤ 4 := by
  cases e with
  | initSha224 | initSha256 | clrerr => exact .inr (Nat.zero_le 4)
  | initUnsupported => exact .inr (by decide : (1 : BitVec 4).toNat ≤ 4)
  | compError | rddNotInitialised | rddIndexRange => exact recordedError_eq_or_le _ s
  | _ => exact .inl rfl

/-- DOUT is written by the read commands only. -/
theorem dout_frame (e : CommandEffect s i t) :
    t.dout = s.dout ∨ i = .rds ∨ ∃ k, i = .rdb k ∨ i = .rdh k ∨ i = .rdd k := by
  cases e with
  | rdb => exact .inr (.inr ⟨_, .inl rfl⟩)
  | rdh => exact .inr (.inr ⟨_, .inr (.inl rfl)⟩)
  | rdd | rddNotInitialised | rddIndexRange => exact .inr (.inr ⟨_, .inr (.inr rfl)⟩)
  | rds => exact .inr (.inl rfl)
  | _ => exact .inl rfl

/-- Every command keeps the canonical form of BLK. -/
theorem blk_wf (e : CommandEffect s i t) (hm : Memory.wf s.blk = true) : Memory.wf t.blk = true := by
  cases e with
  | wrb hi => exact Memory.set_wf hm hi
  | wrw hi => exact Memory.setWord_wf hm (by omega)
  | _ => exact hm

/-- A byte of BLK is written by WRB to it and by WRW to its word only. -/
theorem blk_get_frame (e : CommandEffect s i t) (hm : Memory.wf s.blk = true) (a : Nat) :
    t.blk.get a = s.blk.get a ∨ (∃ b, i = .wrb a b) ∨ ∃ w, i = .wrw (a / 4) w := by
  cases e with
  | @wrb k b _ =>
    by_cases ha : a = k
    · exact .inr (.inl ⟨b, by rw [ha]⟩)
    · exact .inl ((Memory.get_set hm).trans (if_neg ha))
  | @wrw k w hk =>
    by_cases ha : a < 4 * k ∨ 4 * k + 4 ≤ a
    · exact .inl ((Memory.get_setWord hm (by omega)).trans (if_pos ha))
    · exact .inr (.inr ⟨w, by rw [show a / 4 = k by omega]⟩)
  | _ => exact .inl rfl

/-- BUSY, ROUND and WK are written by a COMP with INITD = 1 only. -/
theorem engine_frame (e : CommandEffect s i t) :
    SameEngine s t ∨ (i = .comp ∧ s.initd = true ∧ t = compressionStart s) := by
  cases e with
  | compStart hi => exact .inr ⟨rfl, hi, rfl⟩
  | _ => exact .inl ⟨rfl, rfl, rfl⟩

end CommandEffect

/-! ### What a step does -/

/-- `StepEffect s t`: the step from `s` leaves `t`. One constructor for each branch of R313, with its guards; the port
input of the step goes by in all of them. -/
inductive StepEffect (s : State) : State → Prop where
  | reset (hr : resets s) : StepEffect s (resetAction (portTaken s))
  | round (hr : ¬resets s) (hb : s.busy = true) (hlt : s.round.toNat < 64) : StepEffect s (roundStep (portTaken s))
  | feedForward (hf : feedsForward s) : StepEffect s (feedForwardStep (portTaken s))
  | command {i : Instr} {t : State} (ha : accepts s i) (e : CommandEffect (portTaken s) i t) : StepEffect s t
  | illegal {e : DecodeError} (hr : ¬resets s) (hb : s.busy = false) (hv : (portNow s).cmdValid = true)
      (hd : decode (portNow s).cmd (portNow s).din = .error e) :
      StepEffect s ((portTaken s).setErr (recordedError .illegalCommand s))
  | idle (hr : ¬resets s) (hb : s.busy = false) (hv : (portNow s).cmdValid = false) : StepEffect s (portTaken s)

/-- A step that gives a next state has one of the effects of `StepEffect`. -/
theorem step_effect {s t : State} (h : step s = .next t) : StepEffect s t := by
  have not_resets (hr : (portNow s).rst = false) : ¬resets s := by simp [resets, hr]
  obtain ⟨hr, rfl⟩ | ⟨hr, hb, hlt, rfl⟩ | ⟨hr, hb, h64, rfl⟩ | ⟨i, hr, hb, hv, hd, he⟩ | ⟨e, hr, hb, hv, hd, rfl⟩ |
    ⟨hr, hb, hv, rfl⟩ := topStep_next h
  · exact .reset hr
  · exact .round (not_resets hr) hb hlt
  · exact .feedForward ⟨hr, hb, BitVec.eq_of_toNat_eq h64⟩
  · exact .command ⟨hr, hv, hb, hd⟩ (exec_effect he)
  · rw [raiseError_eq_setErr]
    exact .illegal (not_resets hr) hb hv hd
  · exact .idle (not_resets hr) hb hv

theorem accepts.not_busy {s : State} {i : Instr} (ha : accepts s i) : s.busy = false := by
  obtain ⟨-, -, hb, -⟩ := ha
  exact hb

/-! ### The control invariant -/

/-- The port inputs to come are no part of the invariant. -/
theorem portTaken_inv {s : State} (hs : Inv s) : Inv (portTaken s) :=
  ⟨hs.blk_wf, hs.err_le, hs.round_le, hs.idle_round, hs.busy_initd⟩

theorem reset_inv : Inv State.reset := ⟨Memory.reset_wf, by decide, by decide, fun _ => rfl, by decide⟩

theorem resetAction_inv (s : State) : Inv (resetAction s) :=
  ⟨Memory.reset_wf, reset_inv.err_le, reset_inv.round_le, reset_inv.idle_round, reset_inv.busy_initd⟩

/-- Below 64 the 7-bit round counter does not wrap. -/
theorem round_succ_toNat {r : BitVec 7} (h : r.toNat < 64) : (r + 1).toNat = r.toNat + 1 := by
  bv_omega

theorem roundStep_inv {s : State} (hs : Inv s) (hb : s.busy = true) (hlt : s.round.toNat < 64) :
    Inv (roundStep s) where
  blk_wf := hs.blk_wf
  err_le := hs.err_le
  round_le := (round_succ_toNat hlt).trans_le hlt
  idle_round h := absurd (h.symm.trans hb) (by decide)
  busy_initd := hs.busy_initd

theorem feedForwardStep_inv {s : State} (hs : Inv s) : Inv (feedForwardStep s) :=
  ⟨hs.blk_wf, hs.err_le, Nat.zero_le 64, fun _ => rfl, by simp [feedForwardStep]⟩

theorem compressionStart_inv {s : State} (hs : Inv s) (hi : s.initd = true) : Inv (compressionStart s) :=
  ⟨hs.blk_wf, hs.err_le, Nat.zero_le 64, fun _ => rfl, fun _ => hi⟩

/-- An idle core keeps the invariant when its engine stays as it is, whatever else is written, if BLK stays canonical
and ERR a code of R281. -/
theorem Inv.of_idle {s t : State} (hs : Inv s) (hb : s.busy = false) (hengine : SameEngine s t)
    (hblk : Memory.wf t.blk = true) (herr : t.err = s.err ∨ t.err.toNat ≤ 4) : Inv t := by
  obtain ⟨hbusy, hround, -⟩ := hengine
  refine ⟨hblk, ?_, hround ▸ hs.round_le, fun _ => hround.trans (hs.idle_round hb), fun h => ?_⟩
  · obtain herr | herr := herr
    · exact herr ▸ hs.err_le
    · exact herr
  · exact absurd (h.symm.trans (hbusy.trans hb)) (by decide)

theorem CommandEffect.inv {s t : State} {i : Instr} (e : CommandEffect s i t) (hs : Inv s) (hb : s.busy = false) :
    Inv t := by
  obtain hengine | ⟨-, hi, rfl⟩ := e.engine_frame
  · exact hs.of_idle hb hengine (e.blk_wf hs.blk_wf) e.err_eq_or_le
  · exact compressionStart_inv hs hi

/-- Settles O14: each branch of R313 keeps the invariant. -/
theorem stepKeepsControlInvariant : Obligations.StepKeepsControlInvariant := by
  intro s t hs h
  have hs' := portTaken_inv hs
  cases step_effect h with
  | reset => exact resetAction_inv _
  | round _ hb hlt => exact roundStep_inv hs' hb hlt
  | feedForward => exact feedForwardStep_inv hs'
  | command ha e => exact e.inv hs' ha.not_busy
  | illegal _ hb => exact hs'.of_idle hb ⟨rfl, rfl, rfl⟩ hs'.blk_wf (recordedError_eq_or_le _ s)
  | idle => exact hs'

/-! ### The engine invariant -/

/-- Of an idle core the engine invariant says nothing. -/
theorem EngineInv.of_idle {s : State} (hb : s.busy = false) : EngineInv s :=
  fun h => absurd (h.symm.trans hb) (by decide)

/-- The round step extends the rounds done so far by one (R165, R171). -/
theorem roundStep_engineInv {s : State} (hs : EngineInv s) (hb : s.busy = true) (hlt : s.round.toNat < 64) :
    EngineInv (roundStep s) := by
  intro _
  calc roundFn s.wk (kRom s.round.toNat) (scheduleWord s.blk s.round.toNat)
      = roundFn (roundsUpTo s.h (schedule s.blk) s.round.toNat) (kRom s.round.toNat)
          (scheduleWord s.blk s.round.toNat) := by rw [hs hb]
    _ = roundsUpTo s.h (schedule s.blk) (s.round.toNat + 1) := rfl
    _ = roundsUpTo s.h (schedule s.blk) (s.round + 1).toNat := by rw [round_succ_toNat hlt]

/-- At the start no round is done and WK is the snapshot H (R170). -/
theorem compressionStart_engineInv (s : State) : EngineInv (compressionStart s) := fun _ => rfl

theorem CommandEffect.engineInv {s t : State} {i : Instr} (e : CommandEffect s i t) (hb : s.busy = false) :
    EngineInv t := by
  obtain ⟨hbusy, -⟩ | ⟨-, -, rfl⟩ := e.engine_frame
  · exact .of_idle (hbusy.trans hb)
  · exact compressionStart_engineInv s

/-- Settles O15: a compression start establishes the invariant and a round step keeps it; every other step leaves the
core idle. -/
theorem stepKeepsEngineInvariant : Obligations.StepKeepsEngineInvariant := by
  intro s t _ hs h
  cases step_effect h with
  | reset => exact .of_idle rfl
  | round _ hb hlt => exact roundStep_engineInv (s := portTaken s) hs hb hlt
  | feedForward => exact .of_idle rfl
  | command ha e => exact e.engineInv ha.not_busy
  | illegal _ hb => exact .of_idle hb
  | idle _ hb => exact .of_idle hb

/-! ### The reset state -/

/-- Settles O12, by evaluating each element of the reset state. -/
theorem resetStateValues : Obligations.ResetStateValues :=
  ⟨rfl, rfl, rfl, rfl, rfl, fun _ => rfl, rfl, rfl, rfl, by decide⟩

/-- Settles O13: at reset the core is idle, so the engine invariant says nothing. -/
theorem invariantsHoldAtReset : Obligations.InvariantsHoldAtReset := ⟨reset_inv, .of_idle rfl⟩

/-! ### Who writes what -/

/-- Settles O34: of the branches of R313, only reset, the feed-forward step and an accepted INIT write H. -/
theorem chainingStateWriters : Obligations.ChainingStateWriters := by
  intro s t h hne
  cases step_effect h with
  | reset hr => exact .inl hr
  | feedForward hf => exact .inr (.inr (.inr hf))
  | command ha e =>
    obtain ⟨hh, -⟩ | rfl | rfl := e.chaining_frame
    · exact absurd hh hne
    · exact .inr (.inl ha)
    · exact .inr (.inr (.inl ha))
  | _ => exact absurd rfl hne

/-- VAR is written by reset and by an accepted INIT that succeeds. -/
theorem StepEffect.var_frame {s t : State} (e : StepEffect s t) :
    t.var = s.var ∨ resets s ∨ accepts s (.init 0) ∨ accepts s (.init 1) := by
  cases e with
  | reset hr => exact .inr (.inl hr)
  | command ha e =>
    obtain ⟨-, hvar⟩ | rfl | rfl := e.chaining_frame
    · exact .inl hvar
    · exact .inr (.inr (.inl ha))
    · exact .inr (.inr (.inr ha))
  | _ => exact .inl rfl

/-- INITD is cleared by reset and by an accepted INIT that fails, and set by an accepted INIT that succeeds. -/
theorem StepEffect.initd_cases {s t : State} (e : StepEffect s t) :
    t.initd = s.initd ∨ (t.initd = true ∧ (accepts s (.init 0) ∨ accepts s (.init 1))) ∨
      (t.initd = false ∧ (resets s ∨ accepts s (.init 2) ∨ accepts s (.init 3))) := by
  cases e with
  | reset hr => exact .inr (.inr ⟨rfl, .inl hr⟩)
  | command ha e =>
    obtain h | ⟨h, rfl | rfl⟩ | ⟨h, rfl | rfl⟩ := e.initd_cases
    · exact .inl h
    · exact .inr (.inl ⟨h, .inl ha⟩)
    · exact .inr (.inl ⟨h, .inr ha⟩)
    · exact .inr (.inr ⟨h, .inr (.inl ha)⟩)
    · exact .inr (.inr ⟨h, .inr (.inr ha)⟩)
  | _ => exact .inl rfl

/-- Settles O35, from `StepEffect.var_frame` and `StepEffect.initd_cases`. -/
theorem variantAndInitialisedWriters : Obligations.VariantAndInitialisedWriters := by
  intro s t h
  have e := step_effect h
  refine ⟨e.var_frame.resolve_left, fun hs ht => ?_, fun hs ht => ?_⟩
  · simpa [hs, ht] using e.initd_cases
  · simpa [hs, ht] using e.initd_cases

theorem mem_errorCodes_of_le {c : BitVec 4} (h : c.toNat ≤ 4) : c ∈ ([0, 1, 2, 3, 4] : List (BitVec 4)) := by
  revert c
  decide

/-- While ERR holds an error, it is written by reset, CLRERR and INIT. -/
theorem StepEffect.err_frame {s t : State} (e : StepEffect s t) (h : s.err ≠ 0) :
    t.err = s.err ∨ resets s ∨ accepts s .clrerr ∨ ∃ v, accepts s (.init v) := by
  cases e with
  | reset hr => exact .inr (.inl hr)
  | command ha e =>
    obtain he | rfl | ⟨v, rfl⟩ := e.err_frame h
    · exact .inl he
    · exact .inr (.inr (.inl ha))
    · exact .inr (.inr (.inr ⟨v, ha⟩))
  | illegal => exact .inl (recordedError_of_error _ h)
  | _ => exact .inl rfl

theorem StepEffect.err_eq_or_le {s t : State} (e : StepEffect s t) : t.err = s.err ∨ t.err.toNat ≤ 4 := by
  cases e with
  | reset => exact .inr (Nat.zero_le 4)
  | command _ e => exact e.err_eq_or_le
  | illegal => exact recordedError_eq_or_le _ s
  | _ => exact .inl rfl

/-- Settles O36, from `StepEffect.err_frame` and `StepEffect.err_eq_or_le`. -/
theorem errorWriters : Obligations.ErrorWriters := by
  intro s t h
  have e := step_effect h
  exact ⟨fun hs => (e.err_frame hs).resolve_left, fun hne => mem_errorCodes_of_le (e.err_eq_or_le.resolve_left hne)⟩

/-- Settles O37: of the branches of R313, only reset and an accepted read command write DOUT. -/
theorem outputRegisterWriters : Obligations.OutputRegisterWriters := by
  intro s t h hne
  cases step_effect h with
  | reset hr => exact .inl hr
  | command ha e =>
    obtain hd | rfl | ⟨k, rfl | rfl | rfl⟩ := e.dout_frame
    · exact absurd hd hne
    · exact .inr (.inl ha)
    · exact .inr (.inr ⟨k, .inl ha⟩)
    · exact .inr (.inr ⟨k, .inr (.inl ha)⟩)
    · exact .inr (.inr ⟨k, .inr (.inr ha)⟩)
  | _ => exact absurd rfl hne

/-- Settles O38: of the branches of R313, only reset and an accepted write to the byte change it. -/
theorem blockBufferWriters : Obligations.BlockBufferWriters := by
  intro s t a hm h hne
  cases step_effect h with
  | reset hr => exact .inl hr
  | command ha e =>
    obtain hget | ⟨b, rfl⟩ | ⟨w, rfl⟩ := e.blk_get_frame hm a
    · exact absurd hget hne
    · exact .inr (.inl ⟨b, ha⟩)
    · exact .inr (.inr ⟨w, ha⟩)
  | _ => exact absurd rfl hne

/-- BUSY is written by reset, the feed-forward step and an accepted COMP with INITD = 1. -/
theorem StepEffect.busy_cases {s t : State} (e : StepEffect s t) :
    t.busy = s.busy ∨ (t.busy = false ∧ (resets s ∨ feedsForward s)) ∨
      (t.busy = true ∧ accepts s .comp ∧ s.initd = true) := by
  cases e with
  | reset hr => exact .inr (.inl ⟨rfl, .inl hr⟩)
  | feedForward hf => exact .inr (.inl ⟨rfl, .inr hf⟩)
  | command ha e =>
    obtain ⟨hb, -⟩ | ⟨rfl, hi, rfl⟩ := e.engine_frame
    · exact .inl hb
    · exact .inr (.inr ⟨rfl, ha, hi⟩)
  | _ => exact .inl rfl

/-- Settles O39, from `StepEffect.busy_cases`. -/
theorem busyWriters : Obligations.BusyWriters := by
  intro s t h
  have e := step_effect h
  refine ⟨fun hs ht => ?_, fun hs ht => ?_⟩
  · simpa [hs, ht] using e.busy_cases
  · simpa [hs, ht] using e.busy_cases

/-! ### STATUS -/

theorem Variant.bit_eq (v : Variant) : v.bit = if v = .sha256 then 1 else 0 := by cases v <;> rfl

/-- DLEN is 0, 28 or 32 (R33). -/
theorem dlen_eq (s : State) : dlen s = if s.initd = false then 0 else if s.var = .sha224 then 28 else 32 := by
  cases hi : s.initd <;> cases hv : s.var <;> simp [dlen, hi, hv]

/-- DLEN fits the six bits of its field in STATUS. -/
theorem dlen_lt (s : State) : dlen s < 64 := by
  rw [dlen_eq]
  split_ifs <;> decide

theorem status_initd (s : State) : (status s).getLsbD 0 = s.initd := by
  simp only [status, BitVec.getLsbD_setWidth, BitVec.getLsbD_append]
  simp

/-- The fields of STATUS above INITD are the pieces R32 joins: each append is passed on the side where the field lies. -/
theorem status_fields (s : State) :
    (status s).extractLsb' 1 1 = s.var.bit ∧ (status s).extractLsb' 2 2 = 0 ∧
      (status s).extractLsb' 4 4 = s.err ∧ (status s).extractLsb' 8 6 = BitVec.ofNat 6 (dlen s) := by
  rw [status]
  simp (disch := decide) only [BitVec.extractLsb'_setWidth_of_le, BitVec.extractLsb'_append_eq_of_le,
    BitVec.extractLsb'_append_eq_of_add_le]
  refine ⟨?_, ?_, ?_, ?_⟩ <;> exact BitVec.extractLsb'_eq_self

theorem status_high_bits (s : State) : (status s).extractLsb' 14 18 = 0 := by
  ext i hi
  simp only [BitVec.getElem_extractLsb', status, BitVec.getLsbD_setWidth]
  rw [BitVec.getLsbD_of_ge _ _ (by omega)]
  simp

theorem statusErr_status (s : State) : statusErr (status s) = s.err := by
  obtain ⟨-, -, herr, -⟩ := status_fields s
  exact herr

theorem statusDlen_status_toNat (s : State) : (statusDlen (status s)).toNat = dlen s := by
  obtain ⟨-, -, -, hdlen⟩ := status_fields s
  rw [statusDlen, hdlen, BitVec.toNat_ofNat, Nat.mod_eq_of_lt (dlen_lt s)]

/-- Settles O29: the fields are the pieces that R32 joins, and no piece reaches bit 14. -/
theorem statusFieldLayout : Obligations.StatusFieldLayout := by
  refine ⟨by decide, fun s => ?_⟩
  obtain ⟨hvar, hzero, -⟩ := status_fields s
  exact ⟨status_initd s, hvar.trans s.var.bit_eq, hzero, statusErr_status s,
    (statusDlen_status_toNat s).trans (dlen_eq s), status_high_bits s⟩

/-! ### Platforms -/

/-- A platform step of an existing core is a step of that core alone. -/
theorem platformStep_next {k : Nat} {p q : Platform} {s : State} (hs : p[k]? = some s)
    (h : platformStep k p = .next q) : ∃ t, step s = .next t ∧ q = p.set k t := by
  simp only [platformStep, hs] at h
  cases ht : step s with
  | next t => simp only [ht] at h; cases h; exact ⟨t, rfl, rfl⟩
  | fault f => simp only [ht] at h; cases h
  | refused r => simp only [ht] at h; cases h

theorem platformStep_none {k : Nat} {p : Platform} (hs : p[k]? = none) : platformStep k p = .next p := by
  simp only [platformStep, hs]

/-- Settles O60: a platform step writes entry `k` of the list and nothing else. -/
theorem coresAreIndependent : Obligations.CoresAreIndependent := by
  intro k p q h
  cases hs : p[k]? with
  | none =>
    rw [platformStep_none hs] at h
    cases h
    exact ⟨fun _ _ => rfl, by simp⟩
  | some s =>
    obtain ⟨t, ht, rfl⟩ := platformStep_next hs h
    have hk : k < p.length := (List.getElem?_eq_some_iff.1 hs).1
    refine ⟨fun j hj => List.getElem?_set_ne hj.symm, fun s' hs' => ⟨t, ?_, List.getElem?_set_self hk⟩⟩
    cases hs'
    exact ht

end Sys2Proof.Machine
end

section
/-! SUPPORT. The statements of 20_memory.md: every effect of `CommandEffect` is what `exec` does (`exec_of_effect`, the
converse of `exec_effect`), a decoded command is well formed, and the bytes of a word of BLK are those it is made of. -/

namespace Sys2Proof.Machine

/-! ### Recording an error -/

@[simp] theorem recordedError_setDout (e : CmdError) (s : State) (v : Word) :
    recordedError e (s.setDout v) = recordedError e s := rfl

theorem recordedError_ne_zero (e : CmdError) (s : State) : recordedError e s ≠ 0 := by
  by_cases h : s.err = 0
  · rw [recordedError, if_pos h]
    cases e <;> decide
  · rwa [recordedError_of_error e h]

/-- An error recorded again leaves ERR as it is. -/
theorem recordedError_setErr_recordedError (e : CmdError) (s t : State) :
    recordedError e (t.setErr (recordedError e s)) = recordedError e s :=
  recordedError_of_error e (recordedError_ne_zero e s)

/-! ### Commands complete -/

/-- The converse of `exec_effect`: each effect, under its guards, is the command's. -/
theorem exec_of_effect {i : Instr} {s t : State} (e : CommandEffect s i t) : exec i s = .next t := by
  cases e with
  | nop | initSha224 | initSha256 | rds | clrerr => rfl
  | initUnsupported hv => obtain rfl | rfl := hv <;> rfl
  | wrb hi => exact memWrite1_eq _ s hi
  | wrw hi => exact memWrite4_eq _ s (by simp only [wordAddress]; omega)
  | compStart hi => exact if_pos hi
  | compError hi => simp [exec, execComp, hi, raiseError_eq_setErr]
  | rdb hi => simp [exec, execRdb, memRead1_eq s hi]
  | rdh hj => exact if_pos hj
  | rdd hi hj => simp [exec, execRdd, hi, Nat.not_le.2 hj]
  | rddNotInitialised hi => simp [exec, execRdd, hi, raiseError_eq_setErr]
  | rddIndexRange hi hj => simp [exec, execRdd, hi, hj, raiseError_eq_setErr]

/-- RDD has an effect whatever its operand is (R218). -/
theorem exists_rdd_effect (j : Nat) (s : State) : ∃ t, CommandEffect s (.rdd j) t := by
  cases hi : s.initd with
  | false => exact ⟨_, .rddNotInitialised hi⟩
  | true =>
    obtain hj | hj := Nat.lt_or_ge j (dlen s)
    · exact ⟨_, .rdd hi hj⟩
    · exact ⟨_, .rddIndexRange hi hj⟩

/-- A well-formed command has an effect in every state (R283). -/
theorem exists_effect {i : Instr} (h : wellFormed i = true) (s : State) : ∃ t, CommandEffect s i t := by
  cases i with
  | nop => exact ⟨_, .nop⟩
  | init v =>
    obtain rfl | rfl | hv : v = 0 ∨ v = 1 ∨ v = 2 ∨ v = 3 := by revert v; decide
    · exact ⟨_, .initSha224⟩
    · exact ⟨_, .initSha256⟩
    · exact ⟨_, .initUnsupported hv⟩
  | wrb => exact ⟨_, .wrb (of_decide_eq_true h)⟩
  | wrw => exact ⟨_, .wrw (of_decide_eq_true h)⟩
  | comp =>
    cases hi : s.initd with
    | false => exact ⟨_, .compError hi⟩
    | true => exact ⟨_, .compStart hi⟩
  | rdb => exact ⟨_, .rdb (of_decide_eq_true h)⟩
  | rdh => exact ⟨_, .rdh (of_decide_eq_true h)⟩
  | rdd j => exact exists_rdd_effect j s
  | rds => exact ⟨_, .rds⟩
  | clrerr => exact ⟨_, .clrerr⟩

theorem indexed_ok {f : CmdFields} {bound : Nat} {mk : Nat → Instr} {i : Instr} (h : indexed f bound mk = .ok i) :
    ∃ k, k < bound ∧ i = mk k := by
  simp only [indexed] at h
  split_ifs at h with _ hlt
  cases h
  exact ⟨_, hlt, rfl⟩

/-- The decoder gives only operands in their ranges (R73, R74). -/
theorem wellFormed_of_decode {c d : Word} {i : Instr} (h : decode c d = .ok i) : wellFormed i = true := by
  simp only [decode] at h
  split at h
  · cases h
  split at h
  · cases h
  split at h
  case h_2 =>
    split_ifs at h
    cases h
    rfl
  case h_11 => cases h
  all_goals
    obtain ⟨k, hk, rfl⟩ := indexed_ok h
    simp [wellFormed, hk]

theorem dlen_le (s : State) : dlen s ≤ 32 := by
  rw [dlen_eq]
  split_ifs <;> decide

/-- RDD writes DOUT and ERR only (R218). -/
theorem CommandEffect.rdd_frame {j : Nat} {s t : State} (e : CommandEffect s (.rdd j) t) :
    SameChaining s t ∧ SameBlock s t ∧ SameEngine s t := by
  cases e <;> exact ⟨⟨rfl, rfl, rfl⟩, fun _ => rfl, rfl, rfl, rfl⟩

/-- An RDD beyond the digest, or before any INIT, writes 0 and records its error, NOT_INITIALISED first (R218, R284). -/
theorem CommandEffect.rdd_failing {j : Nat} {s t : State} (e : CommandEffect s (.rdd j) t)
    (h : s.initd = false ∨ dlen s ≤ j) :
    t.dout = 0 ∧ t.err = recordedError (if s.initd = false then .notInitialised else .indexRange) s := by
  cases e with
  | rdd hi hj => exact absurd h (by simp [hi, hj])
  | rddNotInitialised hi => simp [hi]
  | rddIndexRange hi => simp [hi]

/-- An RDD of a byte of the digest reads it and records nothing (R57, R218). -/
theorem CommandEffect.rdd_reading {j : Nat} {s t : State} (e : CommandEffect s (.rdd j) t)
    (hi : s.initd = true) (hj : j < dlen s) : t.dout = zext32 (digestByte s.h j) ∧ t.err = s.err := by
  cases e with
  | rdd => exact ⟨rfl, rfl⟩
  | rddNotInitialised h => exact absurd (hi.symm.trans h) (by decide)
  | rddIndexRange _ h => exact absurd h (by omega)

/-- Settles O17: a decoded command is well formed, so it has an effect; an index that is not encodable fails the range
check of its command, and for RDD lies beyond every digest. -/
theorem commandsCompleteAndUnencodableStop : Obligations.CommandsCompleteAndUnencodableStop := by
  refine ⟨fun c d i s h => ?_, fun i b s h => if_neg (by simpa using h), fun i w s h => if_neg ?_, fun i s h => ?_,
    fun j s h => if_neg (by simpa using h), fun j s h => ?_⟩
  · obtain ⟨t, e⟩ := exists_effect (wellFormed_of_decode h) s
    exact ⟨t, exec_of_effect e⟩
  · simp only [wordAddress, Config.blockBytes]
    omega
  · simp [exec, execRdb, memRead1, Nat.not_lt.2 h]
  · obtain ⟨t, e⟩ := exists_rdd_effect j s
    obtain ⟨hdout, herr⟩ := e.rdd_failing (.inr ((dlen_le s).trans h))
    refine ⟨t, exec_of_effect e, hdout, herr.trans ?_, e.rdd_frame⟩
    by_cases he : s.err = 0
    · rw [recordedError, if_pos he, if_neg (not_not.2 he)]
      split_ifs <;> rfl
    · rw [recordedError_of_error _ he, if_pos he]

/-! ### RDD -/

/-- The command word of an index operand as an opcode and a shifted index (R72). -/
theorem formatC_eq_or {idx : Nat} (op : BitVec 4) (h : idx < 64) :
    formatC op idx 0 = op.setWidth 32 <<< 28 ||| BitVec.ofNat 32 idx <<< 16 := by
  have no_high_bit (n : Nat) (hn : 6 ≤ n) : idx.testBit n = false :=
    Nat.testBit_lt_two_pow (h.trans_le (Nat.pow_le_pow_right (by decide : 2 > 0) hn))
  apply BitVec.eq_of_getLsbD_eq
  intro i hi
  simp only [formatC, joinFields, BitVec.getLsbD_append, BitVec.getLsbD_or, BitVec.getLsbD_shiftLeft,
    BitVec.getLsbD_setWidth, BitVec.getLsbD_ofNat]
  grind

theorem decode_rdd {j : Nat} (d : Word) (h : j < 32) :
    decode ((0x70000000 : Word) ||| (BitVec.ofNat 32 j <<< 16)) d = .ok (.rdd j) := by
  have hword : (0x70000000 : Word) ||| (BitVec.ofNat 32 j <<< 16) = formatC 0x7 j 0 :=
    (formatC_eq_or 0x7 (by omega)).symm
  have hidx : (BitVec.ofNat 6 j).toNat = j := by simp; omega
  rw [hword, decode, splitFields_formatC]
  simp [indexed, hidx, h]

/-- Settles O27, from the effects of RDD: R33's DLEN separates the failing reads from the others. -/
theorem rddReadsDigestByte : Obligations.RddReadsDigestByte := by
  intro j d s hj
  obtain ⟨t, e⟩ := exists_rdd_effect j s
  refine ⟨decode_rdd d hj, t, exec_of_effect e, fun hi => ?_, fun hi hv hj28 => ?_, fun hi hv => ?_, e.rdd_frame⟩
  · obtain ⟨hdout, herr⟩ := e.rdd_failing (.inl hi)
    exact ⟨hdout, by rw [herr, if_pos hi]; rfl⟩
  · obtain ⟨hdout, herr⟩ := e.rdd_failing (.inr (by simpa [dlen_eq, hi, hv] using hj28))
    exact ⟨hdout, by rw [herr, if_neg (by simp [hi])]; rfl⟩
  · refine e.rdd_reading hi ?_
    rw [dlen_eq, if_neg (by simp [hi])]
    obtain hv | hv := hv
    · simpa [hv] using hj
    · split_ifs <;> omega

/-! ### Repeated reads and writes -/

theorem Memory.set_set_same {m : Memory} {x : Nat} {v : Byte} (hm : Memory.wf m = true) (hx : x < 64) :
    (m.set x v).set x v = m.set x v := by
  have hset := Memory.set_wf (v := v) hm hx
  refine Memory.ext_get (Memory.set_wf hset hx) hset fun y => ?_
  rw [Memory.get_set hset, Memory.get_set hm]
  split_ifs <;> rfl

theorem Memory.setWord_setWord_same {m : Memory} {i : Nat} {v : Word} (hm : Memory.wf m = true) (hi : i + 4 ≤ 64) :
    (m.setWord i v).setWord i v = m.setWord i v := by
  have hset := Memory.setWord_wf (v := v) hm hi
  refine Memory.ext_get (Memory.setWord_wf hset hi) hset fun y => ?_
  rw [Memory.get_setWord hset hi, Memory.get_setWord hm hi]
  split_ifs <;> rfl

theorem State.setBlk_setBlk (s : State) (m n : Memory) : (s.setBlk m).setBlk n = s.setBlk n := rfl

/-- Settles O41: each effect of a read or a write, applied to the state it leaves, writes what is there already. -/
theorem readsAndWritesAreIdempotent : Obligations.ReadsAndWritesAreIdempotent := by
  intro i s t hm hcommand h
  have e := exec_effect h
  refine exec_of_effect ?_
  obtain rfl | ⟨k, rfl | rfl | rfl | ⟨b, rfl⟩ | ⟨w, rfl⟩⟩ := hcommand
  · cases e
    exact .rds
  · cases e with
    | rdb hk => exact .rdb (s := s.setDout _) hk
  · cases e with
    | rdh hk => exact .rdh (s := s.setDout _) hk
  · cases e with
    | rdd hi hk => exact .rdd (s := s.setDout _) hi hk
    | rddNotInitialised hi =>
      have := CommandEffect.rddNotInitialised (j := k) (s := (s.setDout 0).setErr (recordedError .notInitialised s)) hi
      rwa [recordedError_setErr_recordedError] at this
    | rddIndexRange hi hk =>
      have := CommandEffect.rddIndexRange (j := k) (s := (s.setDout 0).setErr (recordedError .indexRange s)) hi hk
      rwa [recordedError_setErr_recordedError] at this
  · cases e with
    | wrb hk =>
      have := CommandEffect.wrb (b := b) (s := s.setBlk (s.blk.set k b)) hk
      rwa [State.setBlk_blk, Memory.set_set_same hm hk] at this
  · cases e with
    | wrw hk =>
      have := CommandEffect.wrw (w := w) (s := s.setBlk (s.blk.setWord (4 * k) w)) hk
      rwa [State.setBlk_blk, Memory.setWord_setWord_same hm (by omega)] at this

/-! ### The bytes of a word -/

theorem byteOfWord_getLsbD (w : Word) (k : Nat) {j : Nat} (hj : j < 8) :
    (byteOfWord w k).getLsbD j = w.getLsbD (24 - 8 * k + j) := by
  simp [byteOfWord, hj]

/-- The four bytes side by side: bit by bit, since a byte has no bit from 8 on that another could meet. -/
theorem bytesToWord_eq_append (b0 b1 b2 b3 : Byte) : bytesToWord b0 b1 b2 b3 = b0 ++ b1 ++ b2 ++ b3 := by
  have no_high_bit (b : Byte) (n : Nat) (hn : 8 ≤ n) : b.getLsbD n = false := BitVec.getLsbD_of_ge b n hn
  apply BitVec.eq_of_getLsbD_eq
  intro i hi
  simp only [bytesToWord, zext32, BitVec.getLsbD_or, BitVec.getLsbD_shiftLeft, BitVec.getLsbD_setWidth,
    BitVec.getLsbD_append]
  grind

/-- The byte that `bytesToWord` puts at place `k` is byte `k` of its word (R103). -/
theorem byteOfWord_bytesToWord (b : Nat → Byte) {k : Nat} (hk : k < 4) :
    byteOfWord (bytesToWord (b 0) (b 1) (b 2) (b 3)) k = b k := by
  rw [bytesToWord_eq_append]
  obtain rfl | rfl | rfl | rfl : k = 0 ∨ k = 1 ∨ k = 2 ∨ k = 3 := by omega
  all_goals
    simp (disch := decide) only [byteOfWord, BitVec.extractLsb'_append_eq_of_le,
      BitVec.extractLsb'_append_eq_of_add_le]
    exact BitVec.extractLsb'_eq_self

/-- A word is determined by its four bytes. -/
theorem word_ext_bytes {v w : Word} (h : ∀ k, k < 4 → byteOfWord v k = byteOfWord w k) : v = w := by
  apply BitVec.eq_of_getLsbD_eq
  intro i hi
  have hbit := congrArg (·.getLsbD (i % 8)) (h (3 - i / 8) (by omega))
  simp only [byteOfWord_getLsbD _ _ (Nat.mod_lt i (by decide : 8 > 0))] at hbit
  rwa [show 24 - 8 * (3 - i / 8) + i % 8 = i by omega] at hbit

/-! ### The mixed-width views of BLK -/

theorem Memory.byteOfWord_word (m : Memory) (i : Nat) {k : Nat} (hk : k < 4) :
    byteOfWord (m.word i) k = m.get (i + k) :=
  byteOfWord_bytesToWord (fun k => m.get (i + k)) hk

theorem Memory.word_congr {m n : Memory} {i : Nat} (h : ∀ k, k < 4 → m.get (i + k) = n.get (i + k)) :
    m.word i = n.word i :=
  word_ext_bytes fun k hk => by rw [byteOfWord_word m i hk, byteOfWord_word n i hk, h k hk]

/-- `MemRead(i, 4)` after `MemWrite(i, 4, v)` is `v` (R53). -/
theorem Memory.word_setWord {m : Memory} {i : Nat} {v : Word} (hm : Memory.wf m = true) (hi : i + 4 ≤ 64) :
    (m.setWord i v).word i = v :=
  word_ext_bytes fun k hk => by
    rw [byteOfWord_word _ i hk, get_setWord hm hi, if_neg (by omega), Nat.add_sub_cancel_left]

/-- The first sixteen schedule words are the words of BLK (R122). -/
theorem scheduleWord_eq_word (m : Memory) {i : Nat} (hi : i < 16) : scheduleWord m i = m.word (4 * i) := by
  obtain ⟨l, hl⟩ := expandSchedule_prefix 48 (blockWords m)
  rw [scheduleWord_eq, hl, List.getD_append _ _ _ _ (by rwa [blockWords_length])]
  simp [blockWords, hi]

theorem byteOfWord_scheduleWord (m : Memory) {i k : Nat} (hi : i < 16) (hk : k < 4) :
    byteOfWord (scheduleWord m i) k = m.get (4 * i + k) := by
  rw [scheduleWord_eq_word m hi, m.byteOfWord_word _ hk]

/-- Settles O43: `byteOfWord_scheduleWord` turns the bits of `W[i]` into bytes of BLK, and `Memory.get_set` and
`Memory.get_setWord` say which of those a write changes. -/
theorem mixedWidthViews : Obligations.MixedWidthViews := by
  intro i k s hi hk hm
  refine ⟨(byteOfWord_scheduleWord s.blk hi hk).symm, fun b => ?_, fun v => ?_⟩
  · refine ⟨_, exec_of_effect (.wrb (by omega)), ?_, fun k' hk' hne => ?_, fun i' hi' hne => ?_⟩
    · exact (byteOfWord_scheduleWord _ hi hk).trans ((Memory.get_set hm).trans (if_pos rfl))
    · calc byteOfWord (scheduleWord (s.blk.set (4 * i + k) b) i) k'
          = (s.blk.set (4 * i + k) b).get (4 * i + k') := byteOfWord_scheduleWord _ hi hk'
        _ = s.blk.get (4 * i + k') := (Memory.get_set hm).trans (if_neg (by omega))
        _ = byteOfWord (scheduleWord s.blk i) k' := (byteOfWord_scheduleWord _ hi hk').symm
    · rw [scheduleWord_eq_word _ hi', scheduleWord_eq_word _ hi']
      exact Memory.word_congr fun k' hk' => (Memory.get_set hm).trans (if_neg (by omega))
  · refine ⟨_, _, exec_of_effect (.wrw hi), ?_, fun a ha => ?_, exec_of_effect (.rdb (by omega)), ?_⟩
    · rw [memRead4_eq _ (by omega)]
      exact congrArg _ (Memory.word_setWord hm (by omega))
    · exact (Memory.get_setWord hm (by omega)).trans (if_pos ha)
    · refine congrArg zext32 ((Memory.get_setWord hm (by omega)).trans ?_)
      rw [if_neg (by omega), Nat.add_sub_cancel_left, byteOfWord]

end Sys2Proof.Machine
end

section
/-! SUPPORT. The statements of 30_encoding.md. `DecodesTo` is R73's table as an inductive relation on the fields, one
constructor per command, and `decode_ok_iff` says that it is what the decoder does; the statements about the decoder, the
encoder, the opcode map and the assembler follow from it. LDBLK's are about the host's writes to an idle core. -/

namespace Sys2Proof.Machine

/-! ### Words and their fields -/

/-- A word is made of its fields: it meets the join in every bit, whichever field that bit lies in (R72). -/
@[simp] theorem joinFields_splitFields (c : Word) : joinFields (splitFields c) = c := by
  apply BitVec.eq_of_getLsbD_eq
  intro i hi
  simp only [joinFields, splitFields, BitVec.getLsbD_append, BitVec.getLsbD_extractLsb']
  grind

/-- The fields of a masked word are its fields, masked. -/
theorem splitFields_and (c m : Word) :
    splitFields (c &&& m) =
      { op := (splitFields c).op &&& (splitFields m).op
        z1 := (splitFields c).z1 &&& (splitFields m).z1
        idx := (splitFields c).idx &&& (splitFields m).idx
        z2 := (splitFields c).z2 &&& (splitFields m).z2
        var := (splitFields c).var &&& (splitFields m).var } := by
  simp only [splitFields, BitVec.extractLsb'_and]

/-! ### What decodes to which command -/

/-- `DecodesTo d f i`: a word with the fields `f` decodes, with `d` on `din`, to `i` (R73, R74, R76). -/
inductive DecodesTo (d : Word) : CmdFields → Instr → Prop where
  | nop : DecodesTo d ⟨0x0, 0, 0, 0, 0⟩ .nop
  | init (v : BitVec 2) : DecodesTo d ⟨0x1, 0, 0, 0, v⟩ (.init v)
  | wrb (x : BitVec 6) : DecodesTo d ⟨0x2, 0, x, 0, 0⟩ (.wrb x.toNat (d.extractLsb' 0 8))
  | wrw {x : BitVec 6} (hx : x.toNat < 16) : DecodesTo d ⟨0x3, 0, x, 0, 0⟩ (.wrw x.toNat d)
  | comp : DecodesTo d ⟨0x4, 0, 0, 0, 0⟩ .comp
  | rdb (x : BitVec 6) : DecodesTo d ⟨0x5, 0, x, 0, 0⟩ (.rdb x.toNat)
  | rdh {x : BitVec 6} (hx : x.toNat < 8) : DecodesTo d ⟨0x6, 0, x, 0, 0⟩ (.rdh x.toNat)
  | rdd {x : BitVec 6} (hx : x.toNat < 32) : DecodesTo d ⟨0x7, 0, x, 0, 0⟩ (.rdd x.toNat)
  | rds : DecodesTo d ⟨0x8, 0, 0, 0, 0⟩ .rds
  | clrerr : DecodesTo d ⟨0x9, 0, 0, 0, 0⟩ .clrerr

theorem indexed_eq_ok_iff {f : CmdFields} {bound : Nat} {mk : Nat → Instr} {i : Instr} :
    indexed f bound mk = .ok i ↔ f.var = 0 ∧ f.idx.toNat < bound ∧ mk f.idx.toNat = i := by
  rw [indexed]
  split_ifs with hvar hlt
  · exact ⟨fun h => (nomatch h), fun ⟨h, _⟩ => absurd h hvar⟩
  · rw [Except.ok.injEq]
    exact ⟨fun h => ⟨not_not.1 hvar, hlt, h⟩, fun ⟨_, _, h⟩ => h⟩
  · exact ⟨fun h => (nomatch h), fun ⟨_, h, _⟩ => absurd h hlt⟩

theorem index_eq_zero {x : BitVec 6} (h : x.toNat < 1) : x = 0 :=
  BitVec.eq_of_toNat_eq (Nat.lt_one_iff.1 h)

/-- The decoder's answer is the constructor of its opcode: each branch of `decode` checks that constructor's fields. -/
theorem decodesTo_of_decode {c d : Word} {i : Instr} (h : decode c d = .ok i) : DecodesTo d (splitFields c) i := by
  simp only [decode] at h
  generalize splitFields c = f at h
  obtain ⟨op, z1, x, z2, v⟩ := f
  dsimp only at h
  split at h
  · cases h
  split at h
  · cases h
  rename_i hz1 hz2
  obtain rfl := not_not.1 hz1
  obtain rfl := not_not.1 hz2
  split at h <;> rename_i hop
  case h_2 =>
    obtain rfl : op = 1 := BitVec.eq_of_toNat_eq hop
    split_ifs at h with hx
    obtain rfl := hx
    cases h
    exact .init v
  case h_11 => cases h
  all_goals obtain ⟨rfl, hx, rfl⟩ := indexed_eq_ok_iff.1 h
  · obtain rfl : op = 0 := BitVec.eq_of_toNat_eq hop
    obtain rfl := index_eq_zero hx
    exact .nop
  · obtain rfl : op = 2 := BitVec.eq_of_toNat_eq hop
    exact .wrb x
  · obtain rfl : op = 3 := BitVec.eq_of_toNat_eq hop
    exact .wrw hx
  · obtain rfl : op = 4 := BitVec.eq_of_toNat_eq hop
    obtain rfl := index_eq_zero hx
    exact .comp
  · obtain rfl : op = 5 := BitVec.eq_of_toNat_eq hop
    exact .rdb x
  · obtain rfl : op = 6 := BitVec.eq_of_toNat_eq hop
    exact .rdh hx
  · obtain rfl : op = 7 := BitVec.eq_of_toNat_eq hop
    exact .rdd hx
  · obtain rfl : op = 8 := BitVec.eq_of_toNat_eq hop
    obtain rfl := index_eq_zero hx
    exact .rds
  · obtain rfl : op = 9 := BitVec.eq_of_toNat_eq hop
    obtain rfl := index_eq_zero hx
    exact .clrerr

/-- What the decoder does (R73, R77). -/
theorem decode_ok_iff {c d : Word} {i : Instr} : decode c d = .ok i ↔ DecodesTo d (splitFields c) i := by
  refine ⟨decodesTo_of_decode, fun h => ?_⟩
  rw [decode]
  generalize splitFields c = f at h
  cases h with
  | wrb x | rdb x => simp [indexed, x.isLt]
  | _ => simp [indexed, *]

/-! ### Encoding and decoding -/

theorem exists_index_toNat {k : Nat} (h : k < 64) : ∃ x : BitVec 6, x.toNat = k :=
  ⟨BitVec.ofNat 6 k, (BitVec.toNat_ofNat k 6).trans (Nat.mod_eq_of_lt h)⟩

theorem splitFields_formatC_toNat (op : BitVec 4) (x : BitVec 6) (v : BitVec 2) :
    splitFields (formatC op x.toNat v) = ⟨op, 0, x, 0, v⟩ := by
  rw [splitFields_formatC, BitVec.ofNat_toNat, BitVec.setWidth_eq]

/-- The low byte of a zero-extended byte is that byte (R9). -/
theorem extractLsb'_setWidth_byte (b : Byte) : (b.setWidth 32).extractLsb' 0 8 = b := by
  rw [BitVec.extractLsb'_setWidth_of_le (by decide), BitVec.extractLsb'_eq_self]

/-- The encoded word of a well-formed command has the fields of the command's constructor of `DecodesTo`. -/
theorem decodesTo_encode {i : Instr} (h : wellFormed i = true) :
    DecodesTo (encode i).2 (splitFields (encode i).1) i := by
  cases i with
  | nop => exact .nop
  | init v => exact splitFields_formatC 0x1 0 v ▸ .init v
  | wrb i b =>
    obtain ⟨x, rfl⟩ := exists_index_toNat (of_decide_eq_true h)
    have hb := DecodesTo.wrb (d := b.setWidth 32) x
    rw [extractLsb'_setWidth_byte] at hb
    exact splitFields_formatC_toNat 0x2 x 0 ▸ hb
  | wrw i w =>
    have hi : i < 16 := of_decide_eq_true h
    obtain ⟨x, rfl⟩ := exists_index_toNat (by omega : i < 64)
    exact splitFields_formatC_toNat 0x3 x 0 ▸ .wrw hi
  | comp => exact .comp
  | rdb i =>
    obtain ⟨x, rfl⟩ := exists_index_toNat (of_decide_eq_true h)
    exact splitFields_formatC_toNat 0x5 x 0 ▸ .rdb x
  | rdh j =>
    have hj : j < 8 := of_decide_eq_true h
    obtain ⟨x, rfl⟩ := exists_index_toNat (by omega : j < 64)
    exact splitFields_formatC_toNat 0x6 x 0 ▸ .rdh hj
  | rdd j =>
    have hj : j < 32 := of_decide_eq_true h
    obtain ⟨x, rfl⟩ := exists_index_toNat (by omega : j < 64)
    exact splitFields_formatC_toNat 0x7 x 0 ▸ .rdd hj
  | rds => exact .rds
  | clrerr => exact .clrerr

/-- Settles O1: the decoder takes the encoded word by the constructor of `DecodesTo` whose fields it has. -/
theorem decodeEncodeAgree : Obligations.DecodeEncodeAgree := fun _ h => decode_ok_iff.2 (decodesTo_encode h)

/-- The word of a decoded command is made of the fields it was decoded from. -/
theorem DecodesTo.encode_fst {d : Word} {f : CmdFields} {i : Instr} (h : DecodesTo d f i) :
    (encode i).1 = joinFields f := by
  cases h <;> simp [encode, formatC]

theorem encode_fst_of_decode {c d : Word} {i : Instr} (h : decode c d = .ok i) : (encode i).1 = c := by
  rw [(decode_ok_iff.1 h).encode_fst, joinFields_splitFields]

/-- The low byte, zero-extended, is the word with all other bits cleared. -/
theorem setWidth_lowByte (d : Word) : (d.extractLsb' 0 8).setWidth 32 = d &&& 0x000000FF := by
  have hmask : (0x000000FF : Word) = (BitVec.allOnes 8).setWidth 32 := by decide
  apply BitVec.eq_of_getLsbD_eq
  intro i hi
  simp only [hmask, BitVec.getLsbD_and, BitVec.getLsbD_setWidth, BitVec.getLsbD_extractLsb', BitVec.getLsbD_allOnes,
    Nat.zero_add, hi, decide_true, Bool.true_and]
  exact Bool.and_comm _ _

/-- Settles O2: each constructor of `DecodesTo` keeps of `din` what its command carries. -/
theorem decodedWordReencodes : Obligations.DecodedWordReencodes := by
  intro c d i h
  refine ⟨wellFormed_of_decode h, encode_fst_of_decode h, ?_⟩
  have hf := decodesTo_of_decode h
  generalize splitFields c = f at hf
  cases hf with
  | wrb => exact setWidth_lowByte d
  | _ => rfl

/-! ### The opcode map -/

theorem rowOf_mem_opcodeMap (i : Instr) : rowOf i ∈ opcodeMap := by
  cases i <;> simp [opcodeMap, rowOf]

theorem exists_rowOf_of_mem {r : OpRow} (h : r ∈ opcodeMap) : ∃ i, rowOf i = r := by
  simp only [opcodeMap, List.mem_cons, List.not_mem_nil, or_false] at h
  obtain rfl | rfl | rfl | rfl | rfl | rfl | rfl | rfl | rfl | rfl := h <;> exact ⟨_, rfl⟩

/-- The family TableRow as one statement. -/
theorem encode_selects_rowOf {i : Instr} (h : wellFormed i = true) :
    (encode i).1 &&& (rowOf i).mask = (rowOf i).pattern := by
  cases i with
  | nop => exact Laws.TableRow.nop h
  | init v => exact Laws.TableRow.init v h
  | wrb i b => exact Laws.TableRow.wrb i b h
  | wrw i w => exact Laws.TableRow.wrw i w h
  | comp => exact Laws.TableRow.comp h
  | rdb i => exact Laws.TableRow.rdb i h
  | rdh j => exact Laws.TableRow.rdh j h
  | rdd j => exact Laws.TableRow.rdd j h
  | rds => exact Laws.TableRow.rds h
  | clrerr => exact Laws.TableRow.clrerr h

/-- The fields of a word that selects a row with this opcode, whose mask has `im` and `vm` in IDX and VAR: OP, Z1 and
Z2 are compared in all their bits. -/
theorem splitFields_of_selects {c : Word} {op : BitVec 4} {im : BitVec 6} {vm : BitVec 2}
    (h : c &&& joinFields ⟨0xF, 0x3F, im, 0x3FFF, vm⟩ = joinFields ⟨op, 0, 0, 0, 0⟩) :
    ∃ x v, splitFields c = ⟨op, 0, x, 0, v⟩ ∧ x &&& im = 0 ∧ v &&& vm = 0 := by
  have hfields := congrArg splitFields h
  rw [splitFields_and, splitFields_joinFields, splitFields_joinFields] at hfields
  generalize splitFields c = f at hfields
  obtain ⟨op', z1, x, z2, v⟩ := f
  have hop : op' &&& 0xF = op' := BitVec.and_allOnes
  have hz1 : z1 &&& 0x3F = z1 := BitVec.and_allOnes
  have hz2 : z2 &&& 0x3FFF = z2 := BitVec.and_allOnes
  simp only [hop, hz1, hz2, CmdFields.mk.injEq] at hfields
  obtain ⟨rfl, rfl, hx, rfl, hv⟩ := hfields
  exact ⟨x, v, rfl, hx, hv⟩

/-- An IDX field whose compared bits are 0 is below the bound of R73. -/
theorem index_lt_of_masked (x : BitVec 6) :
    (x &&& 0x30 = 0 → x.toNat < 16) ∧ (x &&& 0x38 = 0 → x.toNat < 8) ∧ (x &&& 0x20 = 0 → x.toNat < 32) := by
  revert x
  decide

/-- A word that selects a command's row decodes to a command of that row (R77). -/
theorem exists_decodesTo_of_selects {c : Word} (d : Word) {i : Instr} (h : c &&& (rowOf i).mask = (rowOf i).pattern) :
    ∃ i', DecodesTo d (splitFields c) i' ∧ rowOf i' = rowOf i := by
  cases i with
  | nop =>
    obtain rfl : c = 0x00000000 := BitVec.and_allOnes.symm.trans h
    exact ⟨_, .nop, rfl⟩
  | init =>
    obtain ⟨x, v, hf, hx, -⟩ := splitFields_of_selects (op := 0x1) (im := 0x3F) (vm := 0) h
    obtain rfl : x = 0 := BitVec.and_allOnes.symm.trans hx
    rw [hf]
    exact ⟨_, .init v, rfl⟩
  | wrb =>
    obtain ⟨x, v, hf, -, hv⟩ := splitFields_of_selects (op := 0x2) (im := 0) (vm := 3) h
    obtain rfl : v = 0 := BitVec.and_allOnes.symm.trans hv
    rw [hf]
    exact ⟨_, .wrb x, rfl⟩
  | wrw =>
    obtain ⟨x, v, hf, hx, hv⟩ := splitFields_of_selects (op := 0x3) (im := 0x30) (vm := 3) h
    obtain rfl : v = 0 := BitVec.and_allOnes.symm.trans hv
    rw [hf]
    exact ⟨_, .wrw ((index_lt_of_masked x).1 hx), rfl⟩
  | comp =>
    obtain rfl : c = 0x40000000 := BitVec.and_allOnes.symm.trans h
    exact ⟨_, .comp, rfl⟩
  | rdb =>
    obtain ⟨x, v, hf, -, hv⟩ := splitFields_of_selects (op := 0x5) (im := 0) (vm := 3) h
    obtain rfl : v = 0 := BitVec.and_allOnes.symm.trans hv
    rw [hf]
    exact ⟨_, .rdb x, rfl⟩
  | rdh =>
    obtain ⟨x, v, hf, hx, hv⟩ := splitFields_of_selects (op := 0x6) (im := 0x38) (vm := 3) h
    obtain rfl : v = 0 := BitVec.and_allOnes.symm.trans hv
    rw [hf]
    exact ⟨_, .rdh ((index_lt_of_masked x).2.1 hx), rfl⟩
  | rdd =>
    obtain ⟨x, v, hf, hx, hv⟩ := splitFields_of_selects (op := 0x7) (im := 0x20) (vm := 3) h
    obtain rfl : v = 0 := BitVec.and_allOnes.symm.trans hv
    rw [hf]
    exact ⟨_, .rdd ((index_lt_of_masked x).2.2 hx), rfl⟩
  | rds =>
    obtain rfl : c = 0x80000000 := BitVec.and_allOnes.symm.trans h
    exact ⟨_, .rds, rfl⟩
  | clrerr =>
    obtain rfl : c = 0x90000000 := BitVec.and_allOnes.symm.trans h
    exact ⟨_, .clrerr, rfl⟩

theorem decode_of_selects {c : Word} (d : Word) {r : OpRow} (hr : r ∈ opcodeMap) (h : c &&& r.mask = r.pattern) :
    ∃ i, decode c d = .ok i ∧ rowOf i = r := by
  obtain ⟨i₀, rfl⟩ := exists_rowOf_of_mem hr
  obtain ⟨i, hi, hrow⟩ := exists_decodesTo_of_selects d h
  exact ⟨i, decode_ok_iff.2 hi, hrow⟩

/-- Settles O3: a decoded word is its command's encoding, which selects the command's row; the converse is
`decode_of_selects`, and two rows that a word selects are the row of the one command it decodes to. -/
theorem opcodeMapDecides : Obligations.OpcodeMapDecides := by
  refine ⟨rfl, fun c d i h => ⟨rowOf_mem_opcodeMap i, ?_⟩, fun c d r => decode_of_selects d, ?_⟩
  · exact encode_fst_of_decode h ▸ encode_selects_rowOf (wellFormed_of_decode h)
  · intro c r r' hr hr' h h'
    obtain ⟨i, hi, rfl⟩ := decode_of_selects 0 hr h
    obtain ⟨i', hi', rfl⟩ := decode_of_selects 0 hr' h'
    rw [hi, Except.ok.injEq] at hi'
    rw [hi']

/-! ### The data word -/

theorem execute_congr {c d d' : Word} (s : State) (h : ∀ i, decode c d = .ok i ↔ decode c d' = .ok i) :
    execute c d s = execute c d' s := by
  cases hd : decode c d with
  | ok i => rw [execute_ok s hd, execute_ok s ((h i).1 hd)]
  | error e =>
    cases hd' : decode c d' with
    | ok i => rw [(h i).2 hd'] at hd; cases hd
    | error e' => rw [execute_error s hd, execute_error s hd']

/-- `din` is read by WRB, its low byte, and by WRW (R76). -/
theorem DecodesTo.of_data {d d' : Word} {f : CmdFields} {i : Instr} (h : DecodesTo d f i)
    (hwrb : f.op = 2 → d.extractLsb' 0 8 = d'.extractLsb' 0 8) (hwrw : f.op ≠ 3) : DecodesTo d' f i := by
  cases h with
  | wrb x => exact hwrb rfl ▸ .wrb x
  | wrw => exact absurd rfl hwrw
  | nop => exact .nop
  | init v => exact .init v
  | comp => exact .comp
  | rdb x => exact .rdb x
  | rdh hx => exact .rdh hx
  | rdd hx => exact .rdd hx
  | rds => exact .rds
  | clrerr => exact .clrerr

theorem execute_data_congr {c d d' : Word} (s : State)
    (hwrb : (splitFields c).op = 2 → d.extractLsb' 0 8 = d'.extractLsb' 0 8) (hwrw : (splitFields c).op ≠ 3) :
    execute c d s = execute c d' s :=
  execute_congr s fun _ => by
    rw [decode_ok_iff, decode_ok_iff]
    exact ⟨fun h => h.of_data hwrb hwrw, fun h => h.of_data (fun hop => (hwrb hop).symm) hwrw⟩

/-- Settles O4, from `DecodesTo.of_data`. -/
theorem dataBusReadOnlyByWrites : Obligations.DataBusReadOnlyByWrites :=
  ⟨fun _ _ _ s hwrb hwrw => execute_data_congr s (fun h => absurd h hwrb) hwrw,
    fun _ _ _ s hop hbyte => execute_data_congr s (fun _ => hbyte) (by rw [hop]; decide)⟩

/-! ### Illegal words -/

theorem opcode_cases {op : BitVec 4} (h : op.toNat < 10) :
    op = 0 ∨ op = 1 ∨ op = 2 ∨ op = 3 ∨ op = 4 ∨ op = 5 ∨ op = 6 ∨ op = 7 ∨ op = 8 ∨ op = 9 := by
  revert op
  decide

/-- The words that decode, by their fields, whatever is on `din` (R73). -/
theorem exists_decodesTo_iff {d : Word} {f : CmdFields} :
    (∃ i, DecodesTo d f i) ↔ f.op.toNat < 10 ∧ f.z1 = 0 ∧ f.z2 = 0 ∧ (f.op ≠ 1 → f.var = 0) ∧
      (f.op ∈ ([0, 1, 4, 8, 9] : List (BitVec 4)) → f.idx = 0) ∧ (f.op = 3 → f.idx.toNat < 16) ∧
      (f.op = 6 → f.idx.toNat < 8) ∧ (f.op = 7 → f.idx.toNat < 32) := by
  constructor
  · rintro ⟨i, h⟩
    cases h <;> simp [*]
  · obtain ⟨op, z1, x, z2, v⟩ := f
    dsimp only
    rintro ⟨hop, rfl, rfl, hvar, hzero, hwrw, hrdh, hrdd⟩
    obtain rfl | rfl | rfl | rfl | rfl | rfl | rfl | rfl | rfl | rfl := opcode_cases hop
    case inr.inl =>
      obtain rfl := hzero (by decide)
      exact ⟨_, .init v⟩
    all_goals obtain rfl := hvar (by decide)
    · obtain rfl := hzero (by decide)
      exact ⟨_, .nop⟩
    · exact ⟨_, .wrb x⟩
    · exact ⟨_, .wrw (hwrw rfl)⟩
    · obtain rfl := hzero (by decide)
      exact ⟨_, .comp⟩
    · exact ⟨_, .rdb x⟩
    · exact ⟨_, .rdh (hrdh rfl)⟩
    · exact ⟨_, .rdd (hrdd rfl)⟩
    · obtain rfl := hzero (by decide)
      exact ⟨_, .rds⟩
    · obtain rfl := hzero (by decide)
      exact ⟨_, .clrerr⟩

theorem exists_decode_error_iff {c d : Word} :
    (∃ e, decode c d = .error e) ↔ ¬∃ i, DecodesTo d (splitFields c) i := by
  simp only [← decode_ok_iff]
  cases decode c d <;> simp

/-- The bits of a word that lie in IDX, as bits of that field. -/
theorem index_extractLsb' (c : Word) {k n : Nat} (h : k + n ≤ 6) :
    (splitFields c).idx.extractLsb' k n = c.extractLsb' (16 + k) n := by
  ext i hi
  simp only [splitFields, BitVec.getElem_extractLsb', BitVec.getLsbD_extractLsb', Nat.add_assoc]
  simp [show k + i < 6 by omega]

/-- An index below a power of two has its IDX bits from there on 0. -/
theorem index_lt_iff (x : BitVec 6) :
    (x.toNat < 16 ↔ x.extractLsb' 4 2 = 0) ∧ (x.toNat < 8 ↔ x.extractLsb' 3 3 = 0) ∧
      (x.toNat < 32 ↔ x.extractLsb' 5 1 = 0) := by
  revert x
  decide

/-- Settles O5: R78's list is the negation of `exists_decodesTo_iff`, and an illegal word records its error and writes
nothing else (`raiseError_eq`). -/
theorem illegalWordsRecordIllegalCommand : Obligations.IllegalWordsRecordIllegalCommand := by
  intro c d s
  constructor
  · obtain ⟨hwrw, hrdh, hrdd⟩ := index_lt_iff (splitFields c).idx
    rw [index_extractLsb' c (by decide)] at hwrw hrdh hrdd
    rw [exists_decode_error_iff, exists_decodesTo_iff, hwrw, hrdh, hrdd]
    simp only [splitFields, not_and_or, Classical.not_imp, Nat.not_lt, ne_eq]
  · rintro ⟨e, h⟩
    refine ⟨_, execute_error s h, ?_⟩
    rw [raiseError_eq]
    exact ⟨rfl, ⟨rfl, rfl, rfl⟩, ⟨rfl, rfl, rfl⟩, fun _ => rfl, rfl⟩

/-! ### The examples -/

/-- Settles O6, by evaluating R83's examples; `INIT 2` has the effect of an unsupported variant in every state. -/
theorem encodingExamplesDecode : Obligations.EncodingExamplesDecode := by
  refine ⟨by decide, by decide, by decide, by decide, by decide, by decide, by decide, by decide,
    fun s => ⟨_, exec_of_effect (.initUnsupported (.inl rfl)), rfl⟩, by decide, by decide, by decide, by decide,
    by decide, by decide, by decide, by decide⟩

/-! ### The assembler -/

/-- The line of a command: its pair when the operands meet the command's check, an error otherwise. -/
theorem assembleLine_command {m : List Char} {ops : List Nat} {i : Instr} {p : Word × Word} {P : Prop} [Decidable P]
    (hi : commandOf m ops = some i) (hwf : wellFormed i = decide P) (hp : P → encode i = p) :
    assembleLine (.command m ops) = if P then some [p] else none := by
  rw [assembleLine, hi, Option.bind_some, assembleInstr, hwf]
  by_cases h : P
  · simp [h, hp h]
  · simp [h]

theorem assembleLine_noCommand {m : List Char} {ops : List Nat} (h : commandOf m ops = none) :
    assembleLine (.command m ops) = none := by
  rw [assembleLine, h, Option.bind_none]

theorem assembleLine_init (v : Nat) : assembleLine (.command "INIT".toList [v]) =
    if v < 4 then some [((0x10000000 : Word) ||| BitVec.ofNat 32 v, 0)] else none := by
  have hword : ∀ k : Fin 4, encode (.init (BitVec.ofNat 2 k)) = ((0x10000000 : Word) ||| BitVec.ofNat 32 k, 0) := by
    decide
  by_cases hv : v < 4
  · rw [if_pos hv, ← hword ⟨v, hv⟩]
    exact assembleLine_command (P := True) ((commandOf_init v).trans (if_pos hv)) rfl fun _ => rfl
  · rw [if_neg hv, assembleLine_noCommand ((commandOf_init v).trans (if_neg hv))]

theorem assembleLine_wrb (i b : Nat) : assembleLine (.command "WRB".toList [i, b]) =
    if i < 64 ∧ b < 256 then some [((0x20000000 : Word) ||| (BitVec.ofNat 32 i <<< 16), BitVec.ofNat 32 b)]
    else none := by
  by_cases hb : b < 256
  · simp only [hb, and_true]
    refine assembleLine_command ((commandOf_wrb i b).trans (if_pos hb)) rfl fun hi => ?_
    exact congrArg₂ Prod.mk (formatC_eq_or 0x2 hi) (BitVec.setWidth_ofNat_of_le_of_lt (by decide) hb)
  · rw [if_neg fun h => hb h.right, assembleLine_noCommand ((commandOf_wrb i b).trans (if_neg hb))]

theorem assembleLine_wrw (i w : Nat) : assembleLine (.command "WRW".toList [i, w]) =
    if i < 16 ∧ w < 2 ^ 32 then some [((0x30000000 : Word) ||| (BitVec.ofNat 32 i <<< 16), BitVec.ofNat 32 w)]
    else none := by
  by_cases hw : w < 2 ^ 32
  · simp only [hw, and_true]
    refine assembleLine_command ((commandOf_wrw i w).trans (if_pos hw)) rfl fun hi => ?_
    exact congrArg (·, BitVec.ofNat 32 w) (formatC_eq_or 0x3 (by omega))
  · rw [if_neg fun h => hw h.right, assembleLine_noCommand ((commandOf_wrw i w).trans (if_neg hw))]

theorem assembleLine_rdb (i : Nat) : assembleLine (.command "RDB".toList [i]) =
    if i < 64 then some [((0x50000000 : Word) ||| (BitVec.ofNat 32 i <<< 16), 0)] else none :=
  assembleLine_command (commandOf_rdb i) rfl fun h => congrArg (·, 0) (formatC_eq_or 0x5 h)

theorem assembleLine_rdh (j : Nat) : assembleLine (.command "RDH".toList [j]) =
    if j < 8 then some [((0x60000000 : Word) ||| (BitVec.ofNat 32 j <<< 16), 0)] else none :=
  assembleLine_command (commandOf_rdh j) rfl fun h => congrArg (·, 0) (formatC_eq_or 0x6 (by omega))

theorem assembleLine_rdd (j : Nat) : assembleLine (.command "RDD".toList [j]) =
    if j < 32 then some [((0x70000000 : Word) ||| (BitVec.ofNat 32 j <<< 16), 0)] else none :=
  assembleLine_command (commandOf_rdd j) rfl fun h => congrArg (·, 0) (formatC_eq_or 0x7 (by omega))

/-- Settles O59, from the lemmas on the lines; a well-formed command's pair decodes to it by `decodeEncodeAgree`, and a pair
decodes to no other (`wellFormed_of_decode`). -/
theorem assemblerChecksRanges : Obligations.AssemblerChecksRanges := by
  refine ⟨⟨by decide, by decide, by decide, by decide⟩, assembleLine_init, assembleLine_wrb, assembleLine_wrw,
    assembleLine_rdb, assembleLine_rdh, assembleLine_rdd, fun c d => rfl, fun n h28 h32 => ?_, fun x hx => ?_,
    fun i => ⟨fun h => ?_, fun h => ?_⟩⟩
  · exact if_neg (not_or.2 ⟨h28, h32⟩)
  · exact ⟨if_neg hx, if_neg hx⟩
  · exact ⟨_, _, assembleInstr_of_wellFormed h, decodeEncodeAgree i h⟩
  · exact ⟨assembleInstr_of_illFormed h, fun c d hd => absurd (h.symm.trans (wellFormed_of_decode hd)) (by decide)⟩

/-! ### The host's writes to an idle core -/

/-- An idle core accepts a command the first time it is offered (R311). -/
theorem issue_idle {i : Instr} {s t : State} (hwf : wellFormed i = true) (hb : s.busy = false) (he : s.err.toNat ≤ 4)
    (h : exec i s = .next t) : issue i s = some t := by
  have hstep : topStep (PortInput.offer (encode i).1 (encode i).2) s = .next t := by
    rw [topStep_execute rfl he hb rfl]
    exact (execute_ok s (decodeEncodeAgree i hwf)).trans h
  have hready : s.cmdReady = true := by rw [State.cmdReady, hb, Bool.not_false]
  simp [issue, issueWithin, hstep, hready]

theorem issueAll_append (l l' : List Instr) (s : State) :
    issueAll (l ++ l') s = (issueAll l s).bind (issueAll l') := by
  induction l generalizing s with
  | nil => rfl
  | cons i l ih => simp only [List.cons_append, issueAll, Option.bind_assoc, ih]

theorem issueAll_singleton (i : Instr) (s : State) : issueAll [i] s = issue i s := Option.bind_fun_some _

/-- A byte of `MemWord(x, i)` is a byte of `x` (R82, R103). -/
theorem byteOfWord_memWord (x : List Byte) (i : Nat) {k : Nat} (hk : k < 4) :
    byteOfWord (memWord x i) k = x.getD (4 * i + k) 0 :=
  byteOfWord_bytesToWord (fun k => x.getD (4 * i + k) 0) hk

/-- Writing word `n` of `x` after its first `n` words writes its first `n + 1` words. -/
theorem Memory.setWord_memWord {m : Memory} {x : List Byte} {n : Nat} (hm : Memory.wf m = true) (hx : x.length = 64)
    (hn : n < 16) :
    (m.setBytes 0 (x.take (4 * n))).setWord (4 * n) (memWord x n) = m.setBytes 0 (x.take (4 * (n + 1))) := by
  have hlen {k : Nat} (hk : k ≤ 16) : (x.take (4 * k)).length = 4 * k := by
    rw [List.length_take, hx]
    omega
  have hfew := hlen hn.le
  have hmore := hlen (k := n + 1) hn
  have hwf : Memory.wf (m.setBytes 0 (x.take (4 * n))) = true := Memory.setBytes_wf hm (by omega)
  refine Memory.ext_get (Memory.setWord_wf hwf (by omega)) (Memory.setBytes_wf hm (by omega)) fun y => ?_
  rw [Memory.get_setWord hwf (by omega), Memory.get_setBytes hm (by omega), Memory.get_setBytes hm (by omega), hfew,
    hmore]
  have getD_take (k : Nat) (hy : y < k) : (x.take k).getD y 0 = x.getD y 0 := by
    simp only [List.getD_eq_getElem?_getD, List.getElem?_take_of_lt hy]
  by_cases hword : y < 4 * n ∨ 4 * n + 4 ≤ y
  · rw [if_pos hword]
    by_cases hy : y < 4 * n
    · rw [if_neg (by omega), if_neg (by omega), Nat.sub_zero, getD_take _ hy, getD_take _ (by omega)]
    · rw [if_pos (by omega), if_pos (by omega)]
  · rw [if_neg hword, if_neg (by omega), byteOfWord_memWord x n (by omega), Nat.sub_zero, getD_take _ (by omega)]
    congr 1
    omega

/-- The first `n` writes of LDBLK, from an idle core: the first `4n` bytes are in place (R82). -/
theorem issueAll_ldblk_first {x : List Byte} {s : State} (hs : Inv s) (hb : s.busy = false) (hx : x.length = 64)
    {n : Nat} (hn : n ≤ 16) :
    issueAll ((List.range n).map fun i => .wrw i (memWord x i)) s =
      some (s.setBlk (s.blk.setBytes 0 (x.take (4 * n)))) := by
  induction n with
  | zero => rfl
  | succ n ih =>
    rw [List.range_succ, List.map_append, issueAll_append, ih (by omega), Option.bind_some, List.map_singleton,
      issueAll_singleton, ← Memory.setWord_memWord hs.blk_wf hx hn]
    exact issue_idle (decide_eq_true hn) hb hs.err_le (exec_of_effect (.wrw hn))

/-- From an idle core, LDBLK is accepted as a whole and writes the 64 bytes (R82). -/
theorem issueAll_ldblk {x : List Byte} {s : State} (hs : Inv s) (hb : s.busy = false) (hx : x.length = 64) :
    issueAll (ldblk x) s = some (s.setBlk (s.blk.setBytes 0 x)) := by
  have h := issueAll_ldblk_first hs hb hx (n := 16) le_rfl
  rwa [List.take_of_length_le hx.le] at h

/-- Settles O57, from `issueAll_ldblk` and what a byte reads after consecutive byte writes. -/
theorem ldblkLoadsBlock : Obligations.LdblkLoadsBlock := by
  intro s x hs hb hx
  refine ⟨_, issueAll_ldblk hs hb hx, fun k hk => ?_, ⟨rfl, rfl, rfl⟩, ⟨rfl, rfl, rfl⟩, rfl, rfl, rfl⟩
  rw [State.setBlk_blk, Memory.get_setBytes hs.blk_wf (by omega), if_neg (by omega), Nat.sub_zero]
  simp [hx, hk]

end Sys2Proof.Machine
end

section
/-! SUPPORT. The statements of 40_word_codec.md. The codec's are about the four bytes that determine a word
(`word_ext_bytes`); the rotation's come from `rotr` being the library's `BitVec.rotateRight`. -/

namespace Sys2Proof.Machine

/-! ### The codec functions -/

theorem bytesToWord_wordToBytes (w : Word) :
    bytesToWord (wordToBytes w).1 (wordToBytes w).2.1 (wordToBytes w).2.2.1 (wordToBytes w).2.2.2 = w :=
  word_ext_bytes fun _ hk => byteOfWord_bytesToWord (byteOfWord w) hk

theorem wordToBytes_bytesToWord (b0 b1 b2 b3 : Byte) :
    wordToBytes (bytesToWord b0 b1 b2 b3) = (b0, b1, b2, b3) := by
  have byteAt {k : Nat} (hk : k < 4) : byteOfWord (bytesToWord b0 b1 b2 b3) k = [b0, b1, b2, b3].getD k 0 :=
    byteOfWord_bytesToWord (fun k => [b0, b1, b2, b3].getD k 0) hk
  rw [wordToBytes, byteAt (by decide), byteAt (by decide), byteAt (by decide), byteAt (by decide)]
  rfl

/-- Settles O42: a word is determined by its bytes, and the byte put at place `k` is byte `k`. -/
theorem codecFunctionsAreInverse : Obligations.CodecFunctionsAreInverse :=
  ⟨bytesToWord_wordToBytes, wordToBytes_bytesToWord⟩

/-! ### Rotation -/

theorem rotr_eq_rotateRight (x : Word) (n : Nat) : rotr x n = x.rotateRight n := BitVec.rotateRight_def.symm

theorem rotr_eq_shifts (x : Word) {n : Nat} (hn : n < 32) : rotr x n = (x >>> n) ||| (x <<< (32 - n)) := by
  rw [rotr, Nat.mod_eq_of_lt hn]

/-- Bit `i` comes from `n` places up, and past bit 31 from the bits that left at bit 0 (R101). -/
theorem rotr_getLsbD (x : Word) {n i : Nat} (hn : n < 32) (hi : i < 32) :
    (rotr x n).getLsbD i = x.getLsbD ((i + n) % 32) := by
  rw [rotr_eq_rotateRight, BitVec.getLsbD_rotateRight, Nat.mod_eq_of_lt hn]
  by_cases hwrap : i < 32 - n
  · have hsource : (i + n) % 32 = n + i := by omega
    simp [hwrap, hsource]
  · have hsource : (i + n) % 32 = i - (32 - n) := by omega
    simp [hwrap, hi, hsource]

/-- Settles O44, from `rotr_eq_shifts` and `rotr_getLsbD`; `n = 0` needs no case of its own. -/
theorem rotationBits : Obligations.RotationBits :=
  fun x _ _ hn => ⟨rotr_eq_shifts x hn, fun _ hi => rotr_getLsbD x hn hi⟩

end Sys2Proof.Machine
end

section
/-! SUPPORT. The statements of 41_schedule_expander.md. R123's sum for the schedule is read off `expandSchedule`, which
only ever appends to the words it sums; the sliding window of R125 is then sixteen consecutive schedule words. -/

namespace Sys2Proof.Machine

/-! ### The expansion sum -/

theorem expandSchedule_getD_of_lt (n : Nat) {w : List Word} {t : Nat} (ht : t < w.length) :
    (expandSchedule n w).getD t 0 = w.getD t 0 := by
  obtain ⟨l, hl⟩ := expandSchedule_prefix n w
  rw [hl, List.getD_append _ _ _ _ ht]

/-- Every word that the expansion adds is R123's sum of words of the result: those the sum was made from stand before
it, and later words leave them in place. -/
theorem expandSchedule_getD (n : Nat) {w : List Word} {t : Nat} (hw : 0 < w.length) (hlow : w.length ≤ t)
    (hhigh : t < w.length + n) :
    (expandSchedule n w).getD t 0 =
      scheduleSum ((expandSchedule n w).getD (t - 16) 0) ((expandSchedule n w).getD (t - 15) 0)
        ((expandSchedule n w).getD (t - 7) 0) ((expandSchedule n w).getD (t - 2) 0) := by
  induction n generalizing w with
  | zero => omega
  | succ n ih =>
    obtain rfl | hlater : t = w.length ∨ w.length < t := by omega
    · have earlier {k : Nat} (hk : 0 < k) :
          (expandSchedule (n + 1) w).getD (w.length - k) 0 = w.getD (w.length - k) 0 :=
        expandSchedule_getD_of_lt (n + 1) (by omega)
      rw [earlier (by decide), earlier (by decide), earlier (by decide), earlier (by decide), expandSchedule,
        expandSchedule_getD_of_lt n (by simp)]
      simp
    · rw [expandSchedule]
      exact ih (by simp) (by simpa using hlater) (by rw [List.length_append, List.length_singleton]; omega)

theorem schedule_length (m : Memory) : (schedule m).length = 64 := by
  rw [schedule, expandSchedule_length, blockWords_length]

/-- R123's sum, for every expanded word. -/
theorem scheduleWord_expanded (m : Memory) {t : Nat} (hlow : 16 ≤ t) (hhigh : t < 64) :
    scheduleWord m t = scheduleSum (scheduleWord m (t - 16)) (scheduleWord m (t - 15)) (scheduleWord m (t - 7))
      (scheduleWord m (t - 2)) := by
  have hlen := blockWords_length m
  simp only [scheduleWord_eq]
  exact expandSchedule_getD 48 (by omega) (by omega) (by omega)

/-- Settles O45, from `scheduleWord_eq_word` and `scheduleWord_expanded`. -/
theorem scheduleRecurrence : Obligations.ScheduleRecurrence :=
  fun m => ⟨schedule_length m, fun _ ht => scheduleWord_eq_word m ht, fun _ => scheduleWord_expanded m⟩

/-! ### The sliding window -/

/-- The words `W[n..n+15]`. -/
def scheduleSegment (m : Memory) (n : Nat) : List Word := (List.range' n 16).map (scheduleWord m)

theorem scheduleSegment_length (m : Memory) (n : Nat) : (scheduleSegment m n).length = 16 := by
  rw [scheduleSegment, List.length_map, List.length_range']

theorem scheduleSegment_getD (m : Memory) (n : Nat) {k : Nat} (hk : k < 16) :
    (scheduleSegment m n).getD k 0 = scheduleWord m (n + k) := by
  simp [scheduleSegment, hk]

/-- R123's sum, with its words in the window's places (R125). -/
theorem scheduleSegment_sum (m : Memory) {n : Nat} (hn : n < 48) :
    scheduleSum ((scheduleSegment m n).getD 0 0) ((scheduleSegment m n).getD 1 0) ((scheduleSegment m n).getD 9 0)
      ((scheduleSegment m n).getD 14 0) = scheduleWord m (n + 16) := by
  rw [scheduleWord_expanded m (by omega) (by omega)]
  simp (disch := decide) only [scheduleSegment_getD]
  rfl

theorem blockWords_eq_scheduleSegment (m : Memory) : blockWords m = scheduleSegment m 0 := by
  rw [blockWords, scheduleSegment, List.range_eq_range']
  exact List.map_congr_left fun t ht => (scheduleWord_eq_word m (by simpa using ht)).symm

/-- The shift drops `W[n]` and appends the sum that is `W[n+16]`. -/
theorem shiftWindow_scheduleSegment (m : Memory) {n : Nat} (hn : n < 48) :
    shiftWindow (scheduleSegment m n) = scheduleSegment m (n + 1) := by
  have hdrop : (scheduleSegment m n).drop 1 = (List.range' (n + 1) 15).map (scheduleWord m) := rfl
  have hnext : scheduleSegment m (n + 1) =
      (List.range' (n + 1) 15).map (scheduleWord m) ++ [scheduleWord m (n + 16)] := by
    rw [scheduleSegment, List.range'_1_concat, List.map_append, List.map_singleton, Nat.add_assoc]
  rw [shiftWindow, scheduleSegment_sum m hn, hdrop, hnext]

/-- After `n` shifts the window is `W[n..n+15]` (R125). -/
theorem slidingWindow_eq_scheduleSegment (m : Memory) {n : Nat} (hn : n ≤ 48) :
    slidingWindow m n = scheduleSegment m n := by
  induction n with
  | zero => exact blockWords_eq_scheduleSegment m
  | succ n ih => rw [slidingWindow, ih (by omega), shiftWindow_scheduleSegment m hn]

/-- Settles O46: the window after `t - 16` shifts is `W[t-16..t-1]`, which holds the four words of R123's sum. -/
theorem slidingWindowGivesSchedule : Obligations.SlidingWindowGivesSchedule := by
  intro m t hlow hhigh
  obtain ⟨n, rfl⟩ : ∃ n, t = n + 16 := ⟨t - 16, by omega⟩
  rw [Nat.add_sub_cancel, slidingWindow_eq_scheduleSegment m (by omega)]
  exact ⟨scheduleSegment_length m n, fun _ => scheduleSegment_getD m n, (scheduleSegment_sum m (by omega)).symm⟩

end Sys2Proof.Machine
end

section
/-! SUPPORT. The statements of 42_round_constants.md. The `t`-th prime is read off the list of the primes below 312
(`nth_prime_eq`); each ROM entry is then compared with the integer root of its prime, which Mathlib's `Nat.nthRoot`
computes by Newton's method. -/

namespace Sys2Proof.Machine

/-! ### The first 64 primes -/

/-- The numbers below `n` that satisfy `p`, in order, are the first values of `Nat.nth p`. -/
theorem filter_range_eq_map_nth (p : Nat → Prop) [DecidablePred p] (n : Nat) :
    (List.range n).filter p = (List.range (Nat.count p n)).map (Nat.nth p) := by
  induction n with
  | zero => rfl
  | succ n ih =>
    rw [List.range_succ, List.filter_append, ih, Nat.count_succ]
    by_cases hn : p n
    · simp [hn, List.range_succ, Nat.nth_count hn]
    · simp [hn]

/-- The primes up to 311, the last one that R140 asks for. -/
def primesBelow312 : List Nat := (List.range 312).filter Nat.Prime

theorem count_prime_312 : Nat.count Nat.Prime 312 = 64 := by decide +kernel

theorem nth_prime_eq {t : Nat} (ht : t < 64) : Nat.nth Nat.Prime t = primesBelow312.getD t 0 := by
  rw [primesBelow312, filter_range_eq_map_nth, count_prime_312]
  simp [ht]

/-! ### Integer roots -/

theorem nthRoot_bounds {n : Nat} (hn : n ≠ 0) (a : Nat) :
    Nat.nthRoot n a ^ n ≤ a ∧ a < (Nat.nthRoot n a + 1) ^ n :=
  ⟨Nat.pow_nthRoot_le_iff.2 (.inl hn), Nat.lt_pow_nthRoot_add_one hn a⟩

theorem sqrt_eq_nthRoot (n : Nat) : Nat.sqrt n = Nat.nthRoot 2 n :=
  (Nat.eq_sqrt'.2 (nthRoot_bounds two_ne_zero n)).symm

/-! ### The round constants -/

/-- R140's formula: the first 32 fraction bits of the cube root of `p`. -/
def cubeRootFraction (p : Nat) : Word := BitVec.ofNat 32 (Nat.nthRoot 3 (p * 2 ^ 96))

theorem kRom_eq_cubeRootFraction :
    ∀ t, t < 64 → kRom t = cubeRootFraction (primesBelow312.getD t 0) := by decide +kernel

/-- Settles O53: `r` is Mathlib's integer cube root, and `kRom_eq_cubeRootFraction` compares the table with it. -/
theorem roundConstantsAreCubeRootFractions : Obligations.RoundConstantsAreCubeRootFractions := by
  intro t ht
  rw [nth_prime_eq ht]
  obtain ⟨hle, hlt⟩ := nthRoot_bounds three_ne_zero (primesBelow312.getD t 0 * 2 ^ 96)
  exact ⟨_, hle, hlt, kRom_eq_cubeRootFraction t ht⟩

/-! ### The initial values -/

/-- R143's formula: with `b` = 32 or 64, the last 32 of the first `b` fraction bits of the square root of `p`. -/
def squareRootFraction (b p : Nat) : Word := BitVec.ofNat 32 (Nat.nthRoot 2 (p * 2 ^ (2 * b)))

theorem iv256_eq_squareRootFraction :
    ∀ i, i < 8 → iv256.word i = squareRootFraction 32 (primesBelow312.getD i 0) := by decide +kernel

theorem iv224_eq_squareRootFraction :
    ∀ i, i < 8 → iv224.word i = squareRootFraction 64 (primesBelow312.getD (8 + i) 0) := by decide +kernel

/-- Settles O54, from the two comparisons with `squareRootFraction`. -/
theorem initialValuesAreSquareRootFractions : Obligations.InitialValuesAreSquareRootFractions := by
  intro i hi
  rw [nth_prime_eq (by omega), nth_prime_eq (by omega), sqrt_eq_nthRoot, sqrt_eq_nthRoot]
  exact ⟨iv256_eq_squareRootFraction i hi, iv224_eq_squareRootFraction i hi⟩

end Sys2Proof.Machine
end

section
/-! SUPPORT. The statements of 43_compression_engine.md. One induction over the round steps (`runSteps_rounds`) says
what a run of them reaches from any busy core (`RoundsLater`); the feed-forward step then ends the run
(`runSteps_compression`). -/

namespace Sys2Proof.Machine

/-! ### Choose and majority -/

/-- The 1 bits of `x` choose `y`, the 0 bits `z` (R162). -/
theorem ch_getLsbD (x y z : Word) {i : Nat} (hi : i < 32) :
    (ch x y z).getLsbD i = if x.getLsbD i then y.getLsbD i else z.getLsbD i := by
  rw [ch, BitVec.getLsbD_xor, BitVec.getLsbD_and, BitVec.getLsbD_and, BitVec.getLsbD_not, decide_eq_true hi]
  cases x.getLsbD i with
  | true => simp
  | false => simp

/-- A bit of `Maj` is what at least two of the three bits are (R163). -/
theorem maj_getLsbD (x y z : Word) (i : Nat) :
    (maj x y z).getLsbD i = decide (2 ≤ (x.getLsbD i).toNat + (y.getLsbD i).toNat + (z.getLsbD i).toNat) := by
  simp only [maj, BitVec.getLsbD_xor, BitVec.getLsbD_and]
  generalize x.getLsbD i = a, y.getLsbD i = b, z.getLsbD i = c
  revert a b c
  decide

/-- Settles O47, from `ch_getLsbD` and `maj_getLsbD`. -/
theorem chooseAndMajorityBits : Obligations.ChooseAndMajorityBits :=
  fun x y z i hi => ⟨rfl, rfl, ch_getLsbD x y z hi, maj_getLsbD x y z i⟩

/-! ### One engine step -/

section
variable {p : PortInput} {s : State} (hr : p.rst = false) (he : s.err.toNat ≤ 4) (hb : s.busy = true)
include hr he hb

theorem topStep_round (hlt : s.round.toNat < 64) : topStep p s = .next (roundStep s) :=
  (topStep_busy hr he hb).trans (engineStep_round hlt)

theorem topStep_feedForward (h64 : s.round.toNat = 64) : topStep p s = .next (feedForwardStep s) :=
  (topStep_busy hr he hb).trans (engineStep_feedForward h64)

end

/-- The feed-forward adders share no carry (R195). -/
theorem feedForward_word (x y : Words8) (i : Nat) : (feedForward x y).word i = x.word i + y.word i := by
  match i with
  | 0 | 1 | 2 | 3 | 4 | 5 | 6 | _ + 7 => rfl

/-- Settles O23: the compression start is an effect of COMP, and its frame is that of three register updates. -/
theorem compStartsCompression : Obligations.CompStartsCompression :=
  fun _ hi => ⟨_, exec_of_effect (.compStart hi), rfl, rfl, rfl, ⟨rfl, rfl, rfl⟩, fun _ => rfl, rfl, rfl⟩

/-- Settles O49, from `topStep_round`; ROUND does not wrap. -/
theorem roundStepWritesWkAndRound : Obligations.RoundStepWritesWkAndRound :=
  fun _ _ hr he hb hlt => ⟨_, topStep_round hr he hb hlt, rfl, round_succ_toNat hlt, hb, ⟨rfl, rfl, rfl⟩,
    fun _ => rfl, rfl, rfl⟩

/-- Settles O50, from `topStep_feedForward`; each word of H is its own sum by `feedForward_word`. -/
theorem feedForwardAddsSnapshot : Obligations.FeedForwardAddsSnapshot := by
  intro p s hr he hb h64
  have word_sum (i : Nat) :
      ((feedForward s.h s.wk).word i).toNat = ((s.h.word i).toNat + (s.wk.word i).toNat) % 2 ^ 32 :=
    (congrArg BitVec.toNat (feedForward_word s.h s.wk i)).trans (BitVec.toNat_add _ _)
  exact ⟨_, topStep_feedForward hr he hb (congrArg BitVec.toNat h64), fun i _ => word_sum i, rfl, rfl, rfl, rfl, rfl,
    fun _ => rfl, rfl, rfl⟩

/-! ### Progress -/

/-- Whatever pair is executed completes: the decoder gives only well-formed commands, and an illegal word is recorded
(R221, R283). -/
theorem exists_execute (c d : Word) (s : State) : ∃ t, execute c d s = .next t := by
  cases hd : decode c d with
  | ok i =>
    obtain ⟨t, e⟩ := exists_effect (wellFormed_of_decode hd) s
    exact ⟨t, (execute_ok s hd).trans (exec_of_effect e)⟩
  | error _ => exact ⟨_, execute_error s hd⟩

/-- A core that meets the control invariant has a next state whatever is on its port (R313). -/
theorem exists_topStep (p : PortInput) {s : State} (hs : Inv s) : ∃ t, topStep p s = .next t := by
  cases hr : p.rst with
  | true => exact ⟨_, topStep_reset s hr⟩
  | false =>
    cases hb : s.busy with
    | true =>
      obtain hlt | h64 := hs.round_le.lt_or_eq
      · exact ⟨_, topStep_round hr hs.err_le hb hlt⟩
      · exact ⟨_, topStep_feedForward hr hs.err_le hb h64⟩
    | false =>
      cases hv : p.cmdValid with
      | true => exact topStep_execute hr hs.err_le hb hv ▸ exists_execute p.cmd p.din s
      | false => exact ⟨_, topStep_idle hr hs.err_le hb hv⟩

/-- Settles O16, from `exists_topStep`. -/
theorem coreNeverStops : Obligations.CoreNeverStops := fun s hs => exists_topStep (portNow s) (portTaken_inv hs)

/-! ### A run of engine steps -/

/-- `RoundsLater n s u`: `u` is what `n` round steps reach from `s`. They write only WK and ROUND while `n` port
inputs go by, count ROUND up by `n`, and keep the engine's data invariant. -/
structure RoundsLater (n : Nat) (s u : State) : Prop where
  frame : u = { s with wk := u.wk, round := u.round, port := s.port.drop n }
  round : u.round.toNat = s.round.toNat + n
  engineInv : EngineInv s → EngineInv u

namespace RoundsLater

variable {n : Nat} {s u : State} (h : RoundsLater n s u)
include h

theorem h_eq : u.h = s.h := by rw [h.frame]
theorem err_eq : u.err = s.err := by rw [h.frame]
theorem blk_eq : u.blk = s.blk := by rw [h.frame]
theorem busy_eq : u.busy = s.busy := by rw [h.frame]
theorem port_eq : u.port = s.port.drop n := by rw [h.frame]

/-- One more round step. -/
theorem succ (hb : s.busy = true) (hlt : u.round.toNat < 64) : RoundsLater (n + 1) s (roundStep (portTaken u)) where
  frame := by
    have hport : u.port.tail = s.port.drop (n + 1) := by rw [h.port_eq, List.tail_drop]
    rw [← hport, h.frame]
    rfl
  round := by
    calc (u.round + 1).toNat = u.round.toNat + 1 := round_succ_toNat hlt
      _ = s.round.toNat + (n + 1) := by rw [h.round, Nat.add_assoc]
  engineInv hs := roundStep_engineInv (s := portTaken u) (h.engineInv hs) (h.busy_eq.trans hb) hlt

end RoundsLater

section
variable {s : State} (hb : s.busy = true) (he : s.err.toNat ≤ 4)
include hb he

/-- As long as ROUND does not pass 64, a busy core that is not reset takes one round step after another (R171). -/
theorem runSteps_rounds {n : Nat} (hn : s.round.toNat + n ≤ 64) (hr : noReset n s = true) :
    ∃ u, runSteps n s = .next u ∧ RoundsLater n s u := by
  induction n with
  | zero => exact ⟨s, runSteps_zero s, rfl, rfl, id⟩
  | succ n ih =>
    obtain ⟨u, hu, h⟩ := ih (by omega) (noReset_mono hr n.le_succ)
    have hlt : u.round.toNat < 64 := by rw [h.round]; omega
    have hstep : step u = .next (roundStep (portTaken u)) :=
      topStep_round (noReset_now (noReset_drop hr h.port_eq)) (h.err_eq ▸ he) (h.busy_eq.trans hb) hlt
    exact ⟨_, (runSteps_add 1 hu).trans (runSteps_succ 0 hstep), h.succ hb hlt⟩

/-- The rounds that are left and the feed-forward step (R171, R172). -/
theorem runSteps_compression {n : Nat} (hn : s.round.toNat + n = 64) (hr : noReset (n + 1) s = true) :
    ∃ u, RoundsLater n s u ∧ runSteps (n + 1) s = .next (feedForwardStep (portTaken u)) := by
  obtain ⟨u, hu, h⟩ := runSteps_rounds hb he hn.le (noReset_mono hr n.le_succ)
  have hstep : step u = .next (feedForwardStep (portTaken u)) :=
    topStep_feedForward (noReset_now (noReset_drop hr h.port_eq)) (h.err_eq ▸ he) (h.busy_eq.trans hb)
      (h.round.trans hn)
  exact ⟨u, h, (runSteps_add 1 hu).trans (runSteps_succ 0 hstep)⟩

end

/-- Settles O52: the steps before the last are round steps, which leave BUSY at 1; the last is the feed-forward step. -/
theorem compressionEnds : Obligations.CompressionEnds := by
  intro s hs hb hr
  obtain ⟨n, hn⟩ := Nat.exists_eq_add_of_le hs.round_le
  rw [show 65 - s.round.toNat = n + 1 by omega] at hr ⊢
  refine ⟨fun k hk => ?_, ?_⟩
  · obtain ⟨u, hu, h⟩ := runSteps_rounds hb hs.err_le (n := k) (by omega) (noReset_mono hr hk.le)
    exact ⟨u, hu, h.busy_eq.trans hb⟩
  · obtain ⟨u, -, hu⟩ := runSteps_compression hb hs.err_le hn.symm hr
    exact ⟨_, hu, rfl⟩

/-! ### The atomic view -/

/-- After the 64 rounds of a compression WK is R165's result. -/
theorem RoundsLater.wk_eq_rounds {s u : State} (h : RoundsLater 64 s u) (hs : EngineInv s) (hb : s.busy = true)
    (hround : s.round.toNat = 0) : u.wk = rounds s.h s.blk := by
  rw [h.engineInv hs (h.busy_eq.trans hb), h.round, h.h_eq, h.blk_eq, hround, Nat.zero_add, rounds_eq]

/-- The feed-forward step after the 64 rounds leaves R166's result in H and ends the compression (R172, R173). -/
theorem RoundsLater.feedForwardStep_eq {s u : State} (h : RoundsLater 64 (compressionStart s) u) :
    feedForwardStep (portTaken u) = { s with
      h := compress s.h s.blk, wk := rounds s.h s.blk, round := 0, busy := false, port := s.port.drop 65 } := by
  have hwk : u.wk = rounds s.h s.blk := h.wk_eq_rounds (compressionStart_engineInv s) rfl rfl
  rw [compress, ← hwk, ← List.tail_drop, h.frame]
  rfl

/-- Settles O51, from the run of the compression that COMP starts at round 0. -/
theorem sixtyFiveStepsEqualAtomicCompression : Obligations.SixtyFiveStepsEqualAtomicCompression := by
  intro s t hi he hr ht
  obtain rfl : compressionStart s = t := Host.Outcome.next.inj ((exec_of_effect (.compStart hi)).symm.trans ht)
  refine ⟨fun n hn => ?_, ?_⟩
  · obtain ⟨u, hu, h⟩ := runSteps_rounds (s := compressionStart s) rfl he (n := n)
      ((Nat.zero_add n).trans_le (Nat.le_of_lt_succ hn)) (noReset_mono hr hn.le)
    exact ⟨u, hu, h.busy_eq, h.h_eq, h.round.trans (Nat.zero_add n)⟩
  · obtain ⟨u, h, hu⟩ := runSteps_compression (s := compressionStart s) rfl he (n := 64) rfl hr
    rw [hu, h.feedForwardStep_eq]

end Sys2Proof.Machine
end

section
/-! The adder tree of the round (44_adder_tree.md R191 to R194): each adder's word is the exact sum of its operands
over the naturals, reduced once modulo 2^32 (R190), in whatever order the model adds them. -/

namespace Sys2Proof.Machine

/-- R191: the nested reductions of the five-operand adder collapse into one. -/
theorem t1Sum_toNat (h sigma1 chosen k w : Word) : (t1Sum h sigma1 chosen k w).toNat =
    (h.toNat + sigma1.toNat + chosen.toNat + k.toNat + w.toNat) % 2 ^ 32 := by
  simp only [t1Sum, BitVec.toNat_add, Nat.mod_add_mod]

theorem t2Sum_toNat (sigma0 majority : Word) :
    (t2Sum sigma0 majority).toNat = (sigma0.toNat + majority.toNat) % 2 ^ 32 :=
  BitVec.toNat_add sigma0 majority

theorem newA_toNat (t1 t2 : Word) : (newA t1 t2).toNat = (t1.toNat + t2.toNat) % 2 ^ 32 :=
  BitVec.toNat_add t1 t2

theorem newE_toNat (d t1 : Word) : (newE d t1).toNat = (d.toNat + t1.toNat) % 2 ^ 32 :=
  BitVec.toNat_add d t1

/-- R193: the new `a` is the sum of the round's two adder outputs. -/
theorem roundFn_a (x : Words8) (k w : Word) : (roundFn x k w).a =
    newA (t1Sum x.h (bigSigma1 x.e) (ch x.e x.f x.g) k w) (t2Sum (bigSigma0 x.a) (maj x.a x.b x.c)) := rfl

/-- R194: the new `e` takes the old `d` and the same `T1`. -/
theorem roundFn_e (x : Words8) (k w : Word) :
    (roundFn x k w).e = newE x.d (t1Sum x.h (bigSigma1 x.e) (ch x.e x.f x.g) k w) := rfl

/-- Settles O48: the two computed words by the adders' exact sums; the six moved words are R164's by definition. -/
theorem roundSumsModulo : Obligations.RoundSumsModulo := by
  intro x k w t1 t2
  have ht1 : (t1Sum x.h (bigSigma1 x.e) (ch x.e x.f x.g) k w).toNat = t1 := t1Sum_toNat ..
  have ht2 : (t2Sum (bigSigma0 x.a) (maj x.a x.b x.c)).toNat = t2 := t2Sum_toNat ..
  have ha : (roundFn x k w).a.toNat = (t1 + t2) % 2 ^ 32 := by rw [roundFn_a, newA_toNat, ht1, ht2]
  have he : (roundFn x k w).e.toNat = (x.d.toNat + t1) % 2 ^ 32 := by rw [roundFn_e, newE_toNat, ht1]
  exact ⟨ha, rfl, rfl, rfl, he, rfl, rfl, rfl⟩

end Sys2Proof.Machine
end

section
/-! SUPPORT. The statements of 45_commands.md. What each command does is its constructor of `CommandEffect`, which
`exec` computes (`exec_of_effect`); what its word decodes to is its constructor of `DecodesTo` (`decode_ok_iff`). A step
that accepts a pair is `execute` of it (`step_execute`). -/

namespace Sys2Proof.Machine

/-! ### The words of the commands -/

/-- Only one word decodes to a command (R72, R73). -/
theorem decode_eq_ok_iff_word {c c₀ d : Word} {i : Instr} (h : decode c₀ d = .ok i) :
    decode c d = .ok i ↔ c = c₀ := by
  refine ⟨fun hc => ?_, fun hc => hc ▸ h⟩
  rw [← encode_fst_of_decode hc, encode_fst_of_decode h]

/-- A word made of an opcode and an index in IDX decodes by those fields (R72, R74). -/
theorem decode_indexWord {k : Nat} {d : Word} {i : Instr} (op : BitVec 4) (hk : k < 64)
    (h : ∀ x : BitVec 6, x.toNat = k → DecodesTo d ⟨op, 0, x, 0, 0⟩ i) :
    decode (op.setWidth 32 <<< 28 ||| BitVec.ofNat 32 k <<< 16) d = .ok i := by
  obtain ⟨x, rfl⟩ := exists_index_toNat hk
  rw [← formatC_eq_or op hk, decode_ok_iff, splitFields_formatC_toNat]
  exact h x rfl

theorem decode_initWord (v : BitVec 2) (d : Word) :
    decode ((0x10000000 : Word) ||| v.setWidth 32) d = .ok (.init v) := by
  have hword : ∀ v : BitVec 2, (0x10000000 : Word) ||| v.setWidth 32 = formatC 0x1 0 v := by decide
  rw [hword, decode_ok_iff, splitFields_formatC]
  exact .init v

/-- A WRW word with an index of 16 or more is illegal (R78). -/
theorem exists_decode_error_of_wrw_index {c : Word} (d : Word) (hop : c.extractLsb' 28 4 = 3)
    (hidx : c.extractLsb' 20 2 ≠ 0) : ∃ e, decode c d = .error e := by
  obtain ⟨hillegal, -⟩ := illegalWordsRecordIllegalCommand c d State.reset
  exact hillegal.2 (.inr (.inr (.inr (.inr (.inr (.inl ⟨hop, hidx⟩))))))

/-! ### The accepting step -/

theorem step_of_port {s : State} {p : PortInput} {rest : List PortInput} (h : s.port = p :: rest) :
    step s = topStep p { s with port := rest } := by
  rw [step, portNow, portTaken, h]
  rfl

/-- The accepting step executes the offered pair (R210, R311). -/
theorem step_execute {s : State} {p : PortInput} {rest : List PortInput} (h : s.port = p :: rest) (hr : p.rst = false)
    (hv : p.cmdValid = true) (hb : s.busy = false) (he : s.err.toNat ≤ 4) :
    step s = execute p.cmd p.din { s with port := rest } :=
  (step_of_port h).trans (topStep_execute hr he hb hv)

/-- Settles O7, from `step_execute`. -/
theorem stepRunsAcceptedCommand : Obligations.StepRunsAcceptedCommand :=
  fun _ _ _ _ hp hr hv hb he hd => (step_execute hp hr hv hb he).trans (execute_ok _ hd)

/-- Settles O8, from `step_execute`; the first error since the last clear is kept (`raiseError_eq`). -/
theorem stepRecordsIllegalWord : Obligations.StepRecordsIllegalWord := by
  intro s p rest e hp hr hv hb he hd
  rw [step_execute hp hr hv hb he, execute_error _ hd, raiseError_eq]
  rfl

/-! ### NOP, INIT and CLRERR -/

/-- Settles O19: NOP's effect is no change. -/
theorem nopChangesNothing : Obligations.NopChangesNothing :=
  fun _ _ _ => ⟨decode_eq_ok_iff_word (decode_ok_iff.2 .nop), exec_of_effect .nop⟩

/-- STATUS is a function of INITD, VAR and ERR (R32, R33). -/
theorem status_congr {s t : State} (hi : s.initd = t.initd) (hv : s.var = t.var) (he : s.err = t.err) :
    status s = status t := by
  simp only [status, dlen_eq, hi, hv, he]

theorem status_loadVariant (v : Variant) (s : State) :
    status (loadVariant v (clearError s)) = if v = .sha224 then 0x00001C01 else 0x00002003 := by
  have hreset : status (loadVariant v (clearError s)) = status (loadVariant v State.reset) := status_congr rfl rfl rfl
  rw [hreset]
  cases v with
  | sha224 => decide
  | sha256 => decide

/-- After a failed INIT, STATUS shows UNSUPPORTED_VARIANT and the tag VAR (R212). -/
theorem status_unsupportedVariant (s : State) :
    status ((s.setErr 1).setInitd false) = if s.var = .sha224 then 0x00000010 else 0x00000012 := by
  have hreset : status ((s.setErr 1).setInitd false) = status ((State.reset.setVar s.var).setErr 1) :=
    status_congr rfl rfl rfl
  rw [hreset]
  cases s.var with
  | sha224 => decide
  | sha256 => decide

/-- Settles O20: each of the four values of `v` has one effect, whose fields are read off the register updates. -/
theorem initLoadsVariant : Obligations.InitLoadsVariant := by
  intro v d s
  refine ⟨decode_initWord v d, ?_⟩
  obtain rfl | rfl | hv : v = 0 ∨ v = 1 ∨ v = 2 ∨ v = 3 := by revert v; decide
  · exact ⟨_, exec_of_effect .initSha224, fun _ => ⟨rfl, rfl, rfl, rfl, status_loadVariant .sha224 s⟩,
      (absurd · (by decide)), (absurd · (by decide)), rfl, fun _ => rfl, rfl, rfl, rfl⟩
  · exact ⟨_, exec_of_effect .initSha256, (absurd · (by decide)),
      fun _ => ⟨rfl, rfl, rfl, rfl, status_loadVariant .sha256 s⟩, (absurd · (by decide)), rfl, fun _ => rfl,
      rfl, rfl, rfl⟩
  · have hne : v ≠ 0 ∧ v ≠ 1 := by revert v; decide
    exact ⟨_, exec_of_effect (.initUnsupported hv), (absurd · hne.left), (absurd · hne.right),
      fun _ => ⟨rfl, rfl, rfl, rfl, status_unsupportedVariant s⟩, rfl, fun _ => rfl, rfl, rfl, rfl⟩

/-- Settles O30: CLRERR's effect writes ERR alone. -/
theorem clrerrClearsError : Obligations.ClrerrClearsError :=
  ⟨fun _ _ => decode_eq_ok_iff_word (decode_ok_iff.2 .clrerr),
    fun _ => ⟨_, exec_of_effect .clrerr, rfl, ⟨rfl, rfl, rfl⟩, fun _ => rfl, ⟨rfl, rfl, rfl⟩, rfl⟩⟩

/-! ### WRB and WRW -/

/-- A byte written to BLK replaces its bits of the schedule word it lies in, and no others of that word (R55, R213). -/
theorem byteOfWord_scheduleWord_set {m : Memory} {i k : Nat} (b : Byte) (hm : Memory.wf m = true) (hi : i < 64)
    (hk : k < 4) : byteOfWord (scheduleWord (m.set i b) (i / 4)) k =
      if k = i % 4 then b else byteOfWord (scheduleWord m (i / 4)) k := by
  have hplace : 4 * (i / 4) + k = i ↔ k = i % 4 := by omega
  rw [byteOfWord_scheduleWord _ (by omega) hk, byteOfWord_scheduleWord m (by omega) hk, Memory.get_set hm]
  simp only [hplace]

/-- Settles O21, from what a byte reads after a write (`Memory.get_set`). -/
theorem wrbStoresOneByte : Obligations.WrbStoresOneByte := by
  intro i d s hi hm
  refine ⟨decode_indexWord 0x2 hi fun x hx => hx ▸ .wrb x, _, exec_of_effect (.wrb hi), ?_, fun a ha => ?_,
    fun k hk => byteOfWord_scheduleWord_set _ hm hi hk, ⟨rfl, rfl, rfl⟩, ⟨rfl, rfl, rfl⟩, rfl, rfl⟩
  · exact (Memory.get_set hm).trans (if_pos rfl)
  · exact (Memory.get_set hm).trans (if_neg ha)

/-- Byte `k` of a word written to BLK stands at its address plus `k` (R53). -/
theorem Memory.get_setWord_add {m : Memory} {i k : Nat} (v : Word) (hm : Memory.wf m = true) (hi : i + 4 ≤ 64)
    (hk : k < 4) : (m.setWord i v).get (i + k) = byteOfWord v k := by
  rw [get_setWord hm hi, if_neg (by omega), Nat.add_sub_cancel_left]

theorem scheduleWord_setWord {m : Memory} {i : Nat} (v : Word) (hm : Memory.wf m = true) (hi : i < 16) :
    scheduleWord (m.setWord (4 * i) v) i = v :=
  (scheduleWord_eq_word _ hi).trans (Memory.word_setWord hm (by omega))

/-- Settles O22, from what a byte and a word of BLK read after a word is written there. -/
theorem wrwStoresFourBytes : Obligations.WrwStoresFourBytes := by
  intro i d s hi hm
  have haddr : 4 * i + 4 ≤ 64 := by omega
  have byteAt {k : Nat} (hk : k < 4) := Memory.get_setWord_add d hm haddr hk
  exact ⟨decode_indexWord 0x3 (by omega) fun x hx => hx ▸ .wrw (hx.trans_lt hi),
    fun _ => exists_decode_error_of_wrw_index d, rfl, _, exec_of_effect (.wrw hi),
    byteAt (k := 0) (by decide), byteAt (by decide), byteAt (by decide), byteAt (by decide),
    fun a ha => (Memory.get_setWord hm haddr).trans (if_pos ha), scheduleWord_setWord d hm hi,
    ⟨rfl, rfl, rfl⟩, ⟨rfl, rfl, rfl⟩, rfl, rfl⟩

/-! ### COMP -/

/-- Settles O24: without INITD it is COMP's failing effect; with it, the engine steps are those of
`sixtyFiveStepsEqualAtomicCompression`. -/
theorem compNetEffect : Obligations.CompNetEffect := by
  refine ⟨fun c d => decode_eq_ok_iff_word (decode_ok_iff.2 .comp), fun s hi => exec_of_effect (.compError hi),
    fun s t hi he hr ht => ?_⟩
  obtain ⟨-, hrun⟩ := sixtyFiveStepsEqualAtomicCompression s t hi he hr ht
  exact ⟨_, hrun, rfl, rfl, rfl, rfl, fun _ => rfl, rfl⟩

/-! ### RDB, RDH and RDS -/

theorem zext32_high_bits (b : Byte) : (zext32 b).extractLsb' 8 24 = 0 := by
  ext i hi
  simp [zext32, BitVec.getElem_extractLsb']

/-- Settles O25: RDB's effect is the byte of BLK, zero-extended, in DOUT. -/
theorem rdbReadsOneByte : Obligations.RdbReadsOneByte :=
  fun _ _ _ hi => ⟨decode_indexWord 0x5 hi fun x hx => hx ▸ .rdb x, _, exec_of_effect (.rdb hi),
    extractLsb'_setWidth_byte _, zext32_high_bits _, ⟨rfl, rfl, rfl⟩, fun _ => rfl, ⟨rfl, rfl, rfl⟩, rfl⟩

/-- The words of a register file in order (R22). -/
theorem Words8.some_word (x : Words8) {j : Nat} (hj : j < 8) :
    some (x.word j) = [x.a, x.b, x.c, x.d, x.e, x.f, x.g, x.h][j]? := by
  match j with
  | 0 | 1 | 2 | 3 | 4 | 5 | 6 | 7 => rfl
  | _ + 8 => omega

/-- Settles O26: RDH's effect is the word of H in DOUT, whatever INITD and VAR are. -/
theorem rdhReadsOneWord : Obligations.RdhReadsOneWord :=
  fun _ _ s hj => ⟨decode_indexWord 0x6 (by omega) fun x hx => hx ▸ .rdh (hx.trans_lt hj), _,
    exec_of_effect (.rdh hj), s.h.some_word hj, ⟨rfl, rfl, rfl⟩, fun _ => rfl, ⟨rfl, rfl, rfl⟩, rfl⟩

/-- Settles O28: RDS's effect is STATUS of the state it is accepted in, in DOUT. -/
theorem rdsReadsStatus : Obligations.RdsReadsStatus :=
  ⟨fun _ _ => decode_eq_ok_iff_word (decode_ok_iff.2 .rds),
    fun _ => ⟨_, exec_of_effect .rds, rfl, ⟨rfl, rfl, rfl⟩, fun _ => rfl, ⟨rfl, rfl, rfl⟩, rfl⟩⟩

end Sys2Proof.Machine
end

section
/-! SUPPORT. The statements of 49_host_sequences.md. The padded message fills its blocks by arithmetic on its length. A
busy core ends its compression while the host waits (`IdleAfter`), so each command of the host meets an idle core
(`exists_idleAfter`); between two commands the core holds a chaining value of a variant (`Holds`), which each part of
R255's sequence keeps or takes one step further. -/

namespace Sys2Proof.Machine

/-! ### Padding -/

theorem be64_length (n : BitVec 64) : (be64 n).length = 8 := rfl

theorem pad_length (m : List Byte) : (pad m).length = m.length + 9 + padZeros m.length := by
  simp only [pad, List.length_append, List.length_singleton, List.length_replicate, be64_length]
  omega

/-- The padded message fills whole blocks (R252). -/
theorem dvd_pad_length (m : List Byte) : 64 ∣ (pad m).length := by
  rw [pad_length, padZeros]
  omega

/-- `z` is the least number of zero bytes that leaves room for the length field alone in the last block (R251). -/
theorem padZeros_isLeast (len : Nat) : IsLeast {z : Nat | 8 * (len + 1 + z) % 512 = 448} (padZeros len) := by
  have leavesRoom : 8 * (len + 1 + padZeros len) % 512 = 448 := by
    rw [padZeros]
    omega
  refine ⟨leavesRoom, fun z (hz : 8 * (len + 1 + z) % 512 = 448) => ?_⟩
  rw [padZeros]
  omega

theorem pad_length_isLeast (m : List Byte) : IsLeast {n : Nat | 64 ∣ n ∧ m.length + 9 ≤ n} (pad m).length := by
  refine ⟨⟨dvd_pad_length m, by rw [pad_length]; omega⟩, fun n ⟨hdvd, hle⟩ => ?_⟩
  rw [pad_length, padZeros]
  omega

/-- Settles O55, from the two minima `padZeros_isLeast` and `pad_length_isLeast`; the length field is `be64`. -/
theorem paddingFillsBlocks : Obligations.PaddingFillsBlocks :=
  fun m => ⟨⟨padZeros m.length, padZeros_isLeast m.length, by rw [padZeros]; omega, rfl⟩, pad_length_isLeast m,
    by decide⟩

/-! ### Blocks -/

theorem splitBlocks_length (n : Nat) (bs : List Byte) : (splitBlocks n bs).length = n := by
  induction n generalizing bs with
  | zero => rfl
  | succ n ih => rw [splitBlocks, List.length_cons, ih]

/-- `n` blocks of a sequence of `64n` bytes, joined, are the sequence (R254). -/
theorem splitBlocks_flatten {n : Nat} {bs : List Byte} (h : bs.length = 64 * n) : (splitBlocks n bs).flatten = bs := by
  induction n generalizing bs with
  | zero => exact (List.length_eq_zero_iff.1 h).symm
  | succ n ih =>
    have hrest : (bs.drop 64).length = 64 * n := by rw [List.length_drop]; omega
    rw [splitBlocks, List.flatten_cons, ih hrest, List.take_append_drop]

theorem length_of_mem_splitBlocks {n : Nat} {bs x : List Byte} (h : bs.length = 64 * n) (hx : x ∈ splitBlocks n bs) :
    x.length = 64 := by
  induction n generalizing bs with
  | zero => cases hx
  | succ n ih =>
    obtain rfl | hx := List.mem_cons.1 hx
    · rw [List.length_take, h, Config.blockBytes]
      omega
    · exact ih (bs := bs.drop 64) (by rw [List.length_drop]; omega) hx

theorem pad_length_eq_mul (m : List Byte) : (pad m).length = 64 * ((pad m).length / 64) :=
  (Nat.mul_div_cancel' (dvd_pad_length m)).symm

theorem length_of_mem_blocksOf {m x : List Byte} (hx : x ∈ blocksOf m) : x.length = 64 :=
  length_of_mem_splitBlocks (pad_length_eq_mul m) hx

/-- Settles O56: the padded message is a whole number of blocks, so the split leaves nothing over. -/
theorem blocksPartitionPaddedMessage : Obligations.BlocksPartitionPaddedMessage :=
  fun m => ⟨splitBlocks_flatten (pad_length_eq_mul m), splitBlocks_length _ _, fun _ => length_of_mem_blocksOf⟩

/-! ### A command offered to a busy core -/

/-- The value of H once a compression that is running has ended (R166, R172). -/
def settledH (s : State) : Words8 := if s.busy then compress s.h s.blk else s.h

theorem settledH_of_busy {s : State} (hb : s.busy = true) : settledH s = compress s.h s.blk := if_pos hb

theorem settledH_of_idle {s : State} (hb : s.busy = false) : settledH s = s.h := by simp [settledH, hb]

/-- `IdleAfter s u`: `u` is the idle core that `s` is once its compression, if one is running, has ended. -/
structure IdleAfter (s u : State) : Prop where
  inv : Inv u
  idle : u.busy = false
  frame : u = { s with h := u.h, wk := u.wk, round := u.round, busy := u.busy }
  h_eq : EngineInv s → u.h = settledH s

theorem IdleAfter.refl {s : State} (hs : Inv s) (hb : s.busy = false) : IdleAfter s s :=
  ⟨hs, hb, rfl, fun _ => (settledH_of_idle hb).symm⟩

/-- The feed-forward step ends the compression; R165's rounds are then all done (R172). -/
theorem IdleAfter.feedForward {s : State} (hs : Inv s) (hb : s.busy = true) (h64 : s.round.toNat = 64) :
    IdleAfter s (feedForwardStep s) where
  inv := feedForwardStep_inv hs
  idle := rfl
  frame := rfl
  h_eq he := by
    have hwk : s.wk = rounds s.h s.blk := by rw [he hb, h64, rounds_eq]
    rw [settledH_of_busy hb, compress, ← hwk]
    rfl

/-- A round step does not change where the compression ends (R171). -/
theorem IdleAfter.of_roundStep {s u : State} (h : IdleAfter (roundStep s) u) (hb : s.busy = true)
    (hlt : s.round.toNat < 64) : IdleAfter s u where
  inv := h.inv
  idle := h.idle
  frame := h.frame
  h_eq he := h.h_eq (roundStep_engineInv he hb hlt)

/-- A step of a busy core accepts nothing: the host holds its command (R250, R312). -/
theorem issueWithin_of_busy {i : Instr} {s t : State} (k : Nat) (hb : s.busy = true)
    (ht : topStep (PortInput.offer (encode i).1 (encode i).2) s = .next t) :
    issueWithin (k + 1) i s = issueWithin k i t := by
  simp [issueWithin, ht, State.cmdReady, hb]

/-- An idle core answers the first offer, however many more the host would make (R311). -/
theorem issueWithin_of_idle (k : Nat) (i : Instr) {s : State} (hb : s.busy = false) :
    issueWithin (k + 1) i s = issue i s := by
  simp [issue, issueWithin, State.cmdReady, hb]

/-- The host waits for the rounds that are left and the feed-forward step (R171 to R174). -/
theorem exists_issueWithin_eq {n : Nat} {s : State} (hs : Inv s) (hb : s.busy = true) (hn : s.round.toNat + n = 64) :
    ∃ u, IdleAfter s u ∧ ∀ k i, issueWithin (k + n + 1) i s = issueWithin k i u := by
  induction n generalizing s with
  | zero =>
    exact ⟨_, .feedForward hs hb hn, fun k _ => issueWithin_of_busy k hb (topStep_feedForward rfl hs.err_le hb hn)⟩
  | succ n ih =>
    have hlt : s.round.toNat < 64 := by omega
    have hround : (roundStep s).round.toNat + n = 64 := by
      rw [show (roundStep s).round.toNat = s.round.toNat + 1 from round_succ_toNat hlt]
      omega
    obtain ⟨u, hu, hissue⟩ := ih (roundStep_inv hs hb hlt) hb hround
    refine ⟨u, hu.of_roundStep hb hlt, fun k i => ?_⟩
    exact (issueWithin_of_busy (k + n + 1) hb (topStep_round rfl hs.err_le hb hlt)).trans (hissue k i)

/-- Every command offered to a core is accepted as by the idle core that it is once a running compression has ended
(R250, R311). -/
theorem exists_idleAfter {s : State} (hs : Inv s) : ∃ u, IdleAfter s u ∧ ∀ i, issue i s = issue i u := by
  cases hb : s.busy with
  | false => exact ⟨s, .refl hs hb, fun _ => rfl⟩
  | true =>
    obtain ⟨n, hn⟩ := Nat.exists_eq_add_of_le hs.round_le
    obtain ⟨u, hu, hissue⟩ := exists_issueWithin_eq hs hb hn.symm
    refine ⟨u, hu, fun i => ?_⟩
    have hwait : Config.rounds + 2 = s.round.toNat + 1 + n + 1 := by
      rw [Config.rounds]
      omega
    calc issue i s = issueWithin (s.round.toNat + 1 + n + 1) i s := by rw [issue, hwait]
      _ = issueWithin (s.round.toNat + 1) i u := hissue _ i
      _ = issue i u := issueWithin_of_idle _ i hu.idle

/-! ### The core between two commands of the host -/

/-- `Holds v h s`: variant `v` is initialised, no error is recorded, and the chaining value is `h`, at the latest when
a running compression has ended. -/
structure Holds (v : Variant) (h : Words8) (s : State) : Prop where
  inv : Inv s
  engineInv : EngineInv s
  initd : s.initd = true
  var : s.var = v
  err : s.err = 0
  chaining : settledH s = h

/-- INIT of a supported variant, from an idle core, makes it hold the variant's initial value (R212). -/
theorem holds_loadVariant (v : Variant) {s : State} (hs : Inv s) (hb : s.busy = false) :
    Holds v (ivOf v) (loadVariant v (clearError s)) where
  inv := hs.of_idle hb ⟨rfl, rfl, rfl⟩ hs.blk_wf (.inr (Nat.zero_le 4))
  engineInv := .of_idle hb
  initd := rfl
  var := rfl
  err := rfl
  chaining := settledH_of_idle (s := loadVariant v (clearError s)) hb

namespace Holds

variable {v : Variant} {h : Words8} {s : State} (hs : Holds v h s)
include hs

theorem setDout (w : Word) : Holds v h (s.setDout w) :=
  ⟨⟨hs.inv.blk_wf, hs.inv.err_le, hs.inv.round_le, hs.inv.idle_round, hs.inv.busy_initd⟩, hs.engineInv, hs.initd,
    hs.var, hs.err, hs.chaining⟩

theorem dlen_eq : dlen s = digestLength v := by
  rw [← hs.var, dlen, hs.initd]
  rfl

/-- The idle core that takes the next command holds the same. -/
theorem exists_idle : ∃ u, Holds v h u ∧ u.busy = false ∧ u.h = h ∧ ∀ i, issue i s = issue i u := by
  obtain ⟨u, hu, hissue⟩ := exists_idleAfter hs.inv
  have hh : u.h = h := (hu.h_eq hs.engineInv).trans hs.chaining
  have hinitd : u.initd = s.initd := by rw [hu.frame]
  have hvar : u.var = s.var := by rw [hu.frame]
  have herr : u.err = s.err := by rw [hu.frame]
  exact ⟨u, ⟨hu.inv, .of_idle hu.idle, hinitd.trans hs.initd, hvar.trans hs.var, herr.trans hs.err,
    (settledH_of_idle hu.idle).trans hh⟩, hu.idle, hh, hissue⟩

/-- RDS shows STATUS to the host (R219, R255). -/
theorem issue_rds : ∃ t, issue .rds s = some t ∧ Holds v h t ∧ statusErr t.doutBus = 0 ∧
    (statusDlen t.doutBus).toNat = digestLength v := by
  obtain ⟨u, hu, hb, -, hissue⟩ := hs.exists_idle
  exact ⟨_, (hissue _).trans (issue_idle rfl hb hu.inv.err_le (exec_of_effect .rds)), hu.setDout _,
    (statusErr_status u).trans hu.err, (statusDlen_status_toNat u).trans hu.dlen_eq⟩

/-- RDD shows a byte of the digest to the host (R218). -/
theorem issue_rdd {j : Nat} (hj : j < digestLength v) :
    ∃ t, issue (.rdd j) s = some t ∧ Holds v h t ∧ t.doutBus.extractLsb' 0 8 = digestByte h j := by
  obtain ⟨u, hu, hb, rfl, hissue⟩ := hs.exists_idle
  rw [← hu.dlen_eq] at hj
  have hwf : wellFormed (.rdd j) = true := decide_eq_true (hj.trans_le (dlen_le u))
  exact ⟨_, (hissue _).trans (issue_idle hwf hb hu.inv.err_le (exec_of_effect (.rdd hu.initd hj))), hu.setDout _,
    extractLsb'_setWidth_byte _⟩

/-- The host reads the digest byte by byte (R255). -/
theorem readBytes_rdd {l : List Nat} (hl : ∀ j ∈ l, j < digestLength v) :
    ∃ t, readBytes (l.map .rdd) s = some (l.map (digestByte h), t) ∧ Holds v h t := by
  induction l generalizing s with
  | nil => exact ⟨s, rfl, hs⟩
  | cons j l ih =>
    obtain ⟨hj, hl⟩ := List.forall_mem_cons.1 hl
    obtain ⟨t, ht, hholds, hbyte⟩ := hs.issue_rdd hj
    obtain ⟨u, hu, hholds⟩ := ih hholds hl
    refine ⟨u, ?_, hholds⟩
    rw [List.map_cons, readBytes, ht, Option.bind_some, hu, Option.map_some, hbyte, List.map_cons]

theorem readBytes_rddig :
    ∃ t, readBytes (rddig (digestLength v)) s = some (exportDigest v h, t) ∧ Holds v h t :=
  hs.readBytes_rdd fun _ => List.mem_range.1

end Holds

/-! ### Blocks sent to the core -/

/-- 64 bytes written to BLK leave nothing of what it held. -/
theorem Memory.setBytes_eq_blockBuffer {m : Memory} {x : List Byte} (hm : Memory.wf m = true) (hx : x.length = 64) :
    m.setBytes 0 x = blockBuffer x := by
  have hi : 0 + x.length ≤ 64 := by omega
  have hempty : Memory.wf [] = true := rfl
  refine Memory.ext_get (Memory.setBytes_wf hm hi) (Memory.setBytes_wf hempty hi) fun y => ?_
  rw [Memory.get_setBytes hm hi, blockBuffer, Memory.get_setBytes hempty hi]
  by_cases hy : y < 0 ∨ 0 + x.length ≤ y
  · rw [if_pos hy, if_pos hy, Memory.get_outside hm (by omega)]
    rfl
  · rw [if_neg hy, if_neg hy]

/-- COMP, from an idle core: the value held is compressed once more (R168, R215). -/
theorem Holds.compressionStart {v : Variant} {h : Words8} {s : State} (hs : Holds v h s) (hb : s.busy = false) :
    Holds v (compress h s.blk) (compressionStart s) where
  inv := compressionStart_inv hs.inv hs.initd
  engineInv := compressionStart_engineInv s
  initd := hs.initd
  var := hs.var
  err := hs.err
  chaining := by rw [← hs.chaining, settledH_of_idle hb]; rfl

/-- LDBLK, from an idle core, keeps the value held (R82). -/
theorem Holds.setBlk {v : Variant} {h : Words8} {s : State} {m : Memory} (hs : Holds v h s) (hb : s.busy = false)
    (hm : Memory.wf m = true) : Holds v h (s.setBlk m) where
  inv := hs.inv.of_idle hb ⟨rfl, rfl, rfl⟩ hm (.inl rfl)
  engineInv := .of_idle hb
  initd := hs.initd
  var := hs.var
  err := hs.err
  chaining := by rw [← hs.chaining, settledH_of_idle hb]; exact settledH_of_idle hb

theorem issueAll_congr {l : List Instr} {s u : State} (hl : l ≠ []) (h : ∀ i, issue i s = issue i u) :
    issueAll l s = issueAll l u := by
  cases l with
  | nil => exact absurd rfl hl
  | cons i l => rw [issueAll, issueAll, h]

/-- A block sent to a core is compressed onto the value it holds (R82, R255). -/
theorem Holds.issueAll_block {v : Variant} {h : Words8} {s : State} {x : List Byte} (hs : Holds v h s)
    (hx : x.length = 64) :
    ∃ t, issueAll (block x) s = some t ∧ Holds v (compress h (blockBuffer x)) t := by
  obtain ⟨u, hu, hb, -, hissue⟩ := hs.exists_idle
  have hloaded : Holds v h (u.setBlk (blockBuffer x)) :=
    hu.setBlk hb (Memory.setBytes_wf Memory.reset_wf (by omega))
  refine ⟨_, ?_, hloaded.compressionStart hb⟩
  calc issueAll (block x) s
      = issueAll (block x) u := issueAll_congr (List.append_ne_nil_of_right_ne_nil _ (List.cons_ne_nil _ _)) hissue
    _ = issue .comp (u.setBlk (blockBuffer x)) := by
        rw [block, issueAll_append, issueAll_ldblk hu.inv hb hx, Memory.setBytes_eq_blockBuffer hu.inv.blk_wf hx,
          Option.bind_some, issueAll_singleton]
    _ = some (Machine.compressionStart (u.setBlk (blockBuffer x))) :=
        issue_idle rfl hb hloaded.inv.err_le (exec_of_effect (.compStart hloaded.initd))

/-- Blocks sent one after another are chained (R168, R255). -/
theorem Holds.issueAll_blocks {v : Variant} {h : Words8} {s : State} {bs : List (List Byte)} (hs : Holds v h s)
    (hbs : ∀ x ∈ bs, x.length = 64) :
    ∃ t, issueAll (bs.flatMap block) s = some t ∧ Holds v (chain h bs) t := by
  induction bs generalizing h s with
  | nil => exact ⟨s, rfl, hs⟩
  | cons x bs ih =>
    obtain ⟨hx, hbs⟩ := List.forall_mem_cons.1 hbs
    obtain ⟨t, ht, hholds⟩ := hs.issueAll_block hx
    obtain ⟨u, hu, hholds⟩ := ih hholds hbs
    refine ⟨u, ?_, hholds⟩
    rw [List.flatMap_cons, issueAll_append, ht, Option.bind_some, hu]

/-! ### The sequence of `computeDigest` -/

theorem issueAll_pair {i : Instr} (j : Instr) {s t : State} (h : issue i s = some t) :
    issueAll [i, j] s = issue j t := by
  rw [issueAll, h, Option.bind_some, issueAll_singleton]

/-- The host's INIT and RDS, whatever the core was doing (R255). -/
theorem issueAll_init {v : Variant} {c : BitVec 2} {s : State} (hs : Inv s)
    (hc : ∀ u, CommandEffect u (.init c) (loadVariant v (clearError u))) :
    ∃ t, issueAll [.init c, .rds] s = some t ∧ Holds v (ivOf v) t ∧ statusErr t.doutBus = 0 ∧
      (statusDlen t.doutBus).toNat = digestLength v := by
  obtain ⟨u, hu, hissue⟩ := exists_idleAfter hs
  have hinit : issue (.init c) s = some (loadVariant v (clearError u)) :=
    (hissue _).trans (issue_idle rfl hu.idle hu.inv.err_le (exec_of_effect (hc u)))
  obtain ⟨t, ht, hstatus⟩ := (holds_loadVariant v hu.inv hu.idle).issue_rds
  exact ⟨t, (issueAll_pair .rds hinit).trans ht, hstatus⟩

/-- INIT of another variant value records its error, which the host's RDS shows (R212, R255). -/
theorem issueAll_init_unsupported {c : BitVec 2} {s : State} (hs : Inv s) (hc : c = 2 ∨ c = 3) :
    ∃ t, issueAll [.init c, .rds] s = some t ∧ t.initd = false ∧
      statusErr t.doutBus = CmdError.unsupportedVariant.code := by
  obtain ⟨u, hu, hissue⟩ := exists_idleAfter hs
  have hinit : issue (.init c) s = some ((u.setErr 1).setInitd false) :=
    (hissue _).trans (issue_idle rfl hu.idle hu.inv.err_le (exec_of_effect (.initUnsupported hc)))
  have herr : ((u.setErr 1).setInitd false).err.toNat ≤ 4 := (by decide : (1 : BitVec 4).toNat ≤ 4)
  exact ⟨_, (issueAll_pair .rds hinit).trans (issue_idle rfl hu.idle herr (exec_of_effect .rds)), rfl,
    statusErr_status _⟩

/-- The digest of a supported variant, from every core that meets the invariant (R255 to R257). -/
theorem computeDigest_supported (m : List Byte) {v : Variant} {c : BitVec 2} {s : State} (hs : Inv s)
    (hc : ∀ u, CommandEffect u (.init c) (loadVariant v (clearError u))) :
    ∃ t, computeDigest m c s = some (.ok (digest v m), t) ∧ Inv t ∧ t.err = 0 := by
  obtain ⟨s1, h1, hholds, herr, hlen⟩ := issueAll_init hs hc
  obtain ⟨s2, h2, hholds⟩ := hholds.issueAll_blocks fun _ => length_of_mem_blocksOf (m := m)
  obtain ⟨s3, h3, hholds⟩ := hholds.readBytes_rddig
  obtain ⟨s4, h4, hholds, herr', -⟩ := hholds.issue_rds
  refine ⟨s4, ?_, hholds.inv, hholds.err⟩
  have hsupported : statusErr s1.doutBus ≠ CmdError.unsupportedVariant.code := by rw [herr]; decide
  rw [computeDigest, h1, Option.bind_some, if_neg hsupported, h2, Option.bind_some, hlen, h3, Option.bind_some, h4,
    Option.map_some, if_pos herr', digest]

/-- The host stops after its first RDS (R255). -/
theorem computeDigest_unsupported (m : List Byte) {c : BitVec 2} {s : State} (hs : Inv s) (hc : c = 2 ∨ c = 3) :
    ∃ t, computeDigest m c s = some (.unsupportedVariant, t) ∧ t.initd = false := by
  obtain ⟨t, ht, hinitd, herr⟩ := issueAll_init_unsupported hs hc
  exact ⟨t, by rw [computeDigest, ht, Option.bind_some, if_pos herr], hinitd⟩

theorem digest_length (v : Variant) (m : List Byte) : (digest v m).length = digestLength v := by
  rw [digest, exportDigest, List.length_map, List.length_range]

/-- Settles O58: INIT makes the core hold the initial value whatever it was doing, the blocks chain it, and the reads
export it (`computeDigest_supported`); the other two variant values stop at the first RDS
(`computeDigest_unsupported`). -/
theorem hostSequenceComputesDigest : Obligations.HostSequenceComputesDigest :=
  fun m _ hs => ⟨computeDigest_supported m hs fun _ => .initSha224, digest_length .sha224 m,
    computeDigest_supported m hs fun _ => .initSha256, digest_length .sha256 m,
    fun _ hv => computeDigest_unsupported m hs hv⟩

end Sys2Proof.Machine
end

section
/-! SUPPORT. The statements of 60_exceptions.md. With another ERR before, a command has the same effect but for ERR
(`CommandEffect.exists_setErr`); with none recorded, the error it reports is a function of the command, INITD and DLEN
(`reportedError`). -/

namespace Sys2Proof.Machine

/-! ### Errors gate no command -/

/-- With any other ERR before, a command other than RDS leaves the same state but for ERR (R283). -/
theorem CommandEffect.exists_setErr {i : Instr} {s t : State} (h : CommandEffect s i t) (hne : i ≠ .rds)
    (e : BitVec 4) : ∃ x, CommandEffect (s.setErr e) i (t.setErr x) := by
  cases h with
  | nop => exact ⟨_, .nop⟩
  | initSha224 => exact ⟨_, .initSha224⟩
  | initSha256 => exact ⟨_, .initSha256⟩
  | initUnsupported hv => exact ⟨_, .initUnsupported hv⟩
  | wrb hi => exact ⟨_, .wrb hi⟩
  | wrw hi => exact ⟨_, .wrw hi⟩
  | compStart hi => exact ⟨_, .compStart hi⟩
  | compError hi => exact ⟨_, .compError hi⟩
  | rdb hi => exact ⟨_, .rdb hi⟩
  | rdh hj => exact ⟨_, .rdh hj⟩
  | rdd hi hj => exact ⟨_, .rdd hi hj⟩
  | rddNotInitialised hi => exact ⟨_, .rddNotInitialised hi⟩
  | rddIndexRange hi hj => exact ⟨_, .rddIndexRange hi hj⟩
  | rds => exact absurd rfl hne
  | clrerr => exact ⟨_, .clrerr⟩

/-- Settles O32, from `CommandEffect.exists_setErr`; RDS completes too, with the STATUS that shows the other ERR. -/
theorem errorGatesNoCommand : Obligations.ErrorGatesNoCommand := by
  intro i s t e h
  by_cases hi : i = .rds
  · subst hi
    cases exec_effect h
    exact ⟨_, exec_of_effect .rds, ⟨rfl, rfl, rfl⟩, ⟨rfl, rfl, rfl⟩, rfl, fun hne => absurd rfl hne⟩
  · obtain ⟨x, hx⟩ := (exec_effect h).exists_setErr hi e
    exact ⟨t.setErr x, exec_of_effect hx, ⟨rfl, rfl, rfl⟩, ⟨rfl, rfl, rfl⟩, rfl, fun _ => rfl⟩

/-! ### The one error of a command -/

/-- The error that a command reports when none is recorded before, 0 for none: INITD is checked before the operand
(R284). -/
def reportedError (s : State) : Instr → BitVec 4
  | .init v => if v = 2 ∨ v = 3 then 1 else 0
  | .comp => if s.initd = false then 4 else 0
  | .rdd j => if s.initd = false then 4 else if dlen s ≤ j then 3 else 0
  | _ => 0

theorem recordedError_of_clear {s : State} (e : CmdError) (h : s.err = 0) : recordedError e s = e.code := if_pos h

theorem CommandEffect.err_of_clear {i : Instr} {s t : State} (e : CommandEffect s i t) (h : s.err = 0) :
    t.err = reportedError s i := by
  cases e with
  | initSha224 | initSha256 | clrerr => rfl
  | initUnsupported hv => exact (if_pos hv).symm
  | compStart hi => exact h.trans (by simp [reportedError, hi])
  | compError hi => exact (recordedError_of_clear _ h).trans (if_pos hi).symm
  | rdd hi hj => exact h.trans (by simp [reportedError, hi, Nat.not_le.2 hj])
  | rddNotInitialised hi => exact (recordedError_of_clear _ h).trans (if_pos hi).symm
  | rddIndexRange hi hj => exact (recordedError_of_clear _ h).trans (by simp [reportedError, CmdError.code, hi, hj])
  | _ => exact h

/-- An encodable index is beyond the digest under SHA-224 alone (R33, R218). -/
theorem dlen_le_iff {s : State} {j : Nat} (hi : s.initd = true) (hj : j < 32) :
    dlen s ≤ j ↔ s.var = .sha224 ∧ 28 ≤ j := by
  rw [dlen_eq, if_neg (by simp [hi])]
  by_cases hv : s.var = .sha224
  · simp [hv]
  · simp [hv, hj]

theorem reportedError_rdd (s : State) {j : Nat} (hj : j < 32) :
    reportedError s (.rdd j) = if s.initd = false then 4 else if s.var = .sha224 ∧ 28 ≤ j then 3 else 0 := by
  cases hi : s.initd with
  | false => simp [reportedError, hi]
  | true => simp [reportedError, hi, dlen_le_iff hi hj]

theorem reportedError_of_unchecked (s : State) {i : Instr} (hcomp : i ≠ .comp) (hrdd : ∀ j, i ≠ .rdd j)
    (hinit : ∀ v, i ≠ .init v) : reportedError s i = 0 := by
  cases i with
  | init v => exact absurd rfl (hinit v)
  | comp => exact absurd rfl hcomp
  | rdd j => exact absurd rfl (hrdd j)
  | _ => rfl

/-- Settles O33: an illegal word records its error before anything else is checked (`execute_error`), and a decoded
command reports its `reportedError`. -/
theorem errorPriority : Obligations.ErrorPriority := by
  intro c d s h
  obtain ⟨t, ht⟩ := exists_execute c d s
  have illegal {e : DecodeError} (hd : decode c d = .error e) : t.err = 2 := by
    rw [execute_error s hd, raiseError_of_clear _ h] at ht
    cases ht
    rfl
  have reports {i : Instr} (hd : decode c d = .ok i) : t.err = reportedError s i :=
    (exec_effect ((execute_ok s hd).symm.trans ht)).err_of_clear h
  refine ⟨t, ht, fun _ => illegal, reports, fun j hd => ?_, fun _ => reports, fun i hd hcomp hrdd hinit => ?_⟩
  · exact (reports hd).trans (reportedError_rdd s (of_decide_eq_true (wellFormed_of_decode hd)))
  · exact (reports hd).trans (reportedError_of_unchecked s hcomp hrdd hinit)

/-! ### States that no rule produces -/

theorem topStep_reservedError {p : PortInput} {s : State} (hr : p.rst = false) (he : reservedError s) :
    topStep p s = .fault .reservedErrorCode := by
  simp [topStep, hr, he]

theorem engineStep_roundOutOfRange {s : State} (h : 64 < s.round.toNat) :
    engineStep s = .fault .roundOutOfRange := by
  rw [engineStep, if_neg (Nat.not_lt.2 h.le), if_neg h.ne']

/-- Settles O18, from `topStep_reservedError` and `engineStep_roundOutOfRange`. -/
theorem unreachableStatesFault : Obligations.UnreachableStatesFault :=
  fun s hr => ⟨topStep_reservedError (s := portTaken s) hr,
    fun he hb hround => (topStep_busy (s := portTaken s) hr he hb).trans (engineStep_roundOutOfRange hround)⟩

/-! ### Recording and clearing -/

/-- Settles O31, from the two cases of `raiseError` and the effects of INIT, CLRERR and reset. -/
theorem firstErrorIsKept : Obligations.FirstErrorIsKept :=
  ⟨fun e _ => raiseError_of_clear e, fun e _ => raiseError_of_error e,
    fun _ => ⟨_, exec_of_effect .initSha224, rfl⟩, fun _ => ⟨_, exec_of_effect .initSha256, rfl⟩,
    fun _ => ⟨_, exec_of_effect (.initUnsupported (.inl rfl)), rfl⟩,
    fun _ => ⟨_, exec_of_effect (.initUnsupported (.inr rfl)), rfl⟩,
    fun _ => ⟨_, exec_of_effect .clrerr, rfl⟩, fun _ s hr => ⟨_, topStep_reset s hr, rfl⟩⟩

end Sys2Proof.Machine
end

section
/-! SUPPORT. The statements of 70_reset_and_hazards.md: which port input a step takes, and what one or more steps do that
execute no command: idle steps (R314), reset steps (R310), and the steps of a busy core (R312). -/

namespace Sys2Proof.Machine

/-! ### The port inputs -/

theorem CommandEffect.port_eq {i : Instr} {s t : State} (e : CommandEffect s i t) : t.port = s.port := by
  cases e with
  | _ => rfl

/-- Every branch of R313 takes the port input of the step and no other. -/
theorem StepEffect.port_eq {s t : State} (e : StepEffect s t) : t.port = s.port.tail := by
  cases e with
  | command _ e => exact e.port_eq
  | _ => rfl

theorem portTaken_of_nil {s : State} (h : s.port = []) : portTaken s = s := by
  rw [portTaken, h, List.tail_nil, ← h]
  rfl

/-- Beyond the end of the list the host drives nothing (log 1). -/
theorem step_of_port_nil {s : State} (h : s.port = []) : step s = topStep PortInput.quiet s := by
  rw [step, portTaken_of_nil h, portNow, h]
  rfl

/-- Settles O9, from the frames of the effects and the two cases of the port list. -/
theorem portInputsGoByOneAStep : Obligations.PortInputsGoByOneAStep :=
  ⟨fun _ _ _ h => (exec_effect h).port_eq, fun _ _ _ => step_of_port, fun _ => step_of_port_nil,
    fun _ _ h => (step_effect h).port_eq⟩

/-! ### Idle steps -/

/-- Settles O10, by induction on the number of steps: each takes one idle input off, or finds none. -/
theorem idleStepsChangeNothing : Obligations.IdleStepsChangeNothing := by
  intro n
  induction n with
  | zero => exact fun s _ _ _ => runSteps_zero s
  | succ n ih =>
    intro s hb he h
    cases hp : s.port with
    | nil =>
      have hstep : step s = .next s := (step_of_port_nil hp).trans (topStep_idle rfl he hb rfl)
      rw [runSteps_succ n hstep, ih s hb he (by simp [hp]), hp, List.drop_nil, List.drop_nil]
    | cons p rest =>
      rw [hp, List.take_succ_cons, List.forall_mem_cons] at h
      obtain ⟨⟨hr, hv⟩, hrest⟩ := h
      have hstep : step s = .next { s with port := rest } := (step_of_port hp).trans (topStep_idle hr he hb hv)
      rw [runSteps_succ n hstep]
      exact ih _ hb he hrest

/-! ### Reset steps -/

theorem step_reset {s : State} {p : PortInput} {rest : List PortInput} (h : s.port = p :: rest) (hr : p.rst = true) :
    step s = .next (State.reset.setPort rest) :=
  (step_of_port h).trans (topStep_reset _ hr)

/-- After one reset step and `n` more only the port inputs still to come are left of the state before (R310). -/
theorem runSteps_reset {n : Nat} {s : State} {p : PortInput} {ps : List PortInput} (h : s.port = p :: ps)
    (hn : n ≤ ps.length) (hnow : p.rst = true) (hlater : ∀ q ∈ ps.take n, q.rst = true) :
    runSteps (n + 1) s = .next (State.reset.setPort (ps.drop n)) := by
  induction n generalizing s p ps with
  | zero => exact runSteps_succ 0 (step_reset h hnow)
  | succ n ih =>
    obtain ⟨q, qs, rfl⟩ := List.exists_cons_of_length_pos (Nat.zero_lt_of_lt hn)
    rw [List.take_succ_cons, List.forall_mem_cons] at hlater
    obtain ⟨hnext, hlater⟩ := hlater
    exact (runSteps_succ _ (step_reset h hnow)).trans (ih rfl (Nat.le_of_succ_le_succ hn) hnext hlater)

/-- STATUS does not read the port inputs to come (R32, R36). -/
theorem status_reset_setPort (l : List PortInput) : status (State.reset.setPort l) = 0 :=
  (status_congr rfl rfl rfl).trans (by decide : status State.reset = 0)

/-- Settles O11, from `runSteps_reset` and the reset values. -/
theorem resetSetsEveryElement : Obligations.ResetSetsEveryElement := by
  intro n s hn hr
  obtain ⟨p, ps, hp⟩ := List.exists_cons_of_length_pos (Nat.zero_lt_of_lt hn)
  rw [hp, List.take_succ_cons, List.forall_mem_cons] at hr
  rw [hp] at hn ⊢
  obtain ⟨hnow, hlater⟩ := hr
  exact ⟨_, runSteps_reset hp (Nat.le_of_lt_succ hn) hnow hlater, rfl, rfl, rfl, fun _ => rfl, rfl, rfl, rfl, rfl, rfl,
    rfl, rfl, status_reset_setPort _⟩

/-! ### A busy core -/

/-- R313 for a busy core: an engine step, unless reset or a reserved ERR code comes before it. -/
theorem topStep_of_busy {s : State} (p : PortInput) (hb : s.busy = true) :
    topStep p s = if p.rst then .next (resetAction s) else if reservedError s then .fault .reservedErrorCode
      else engineStep s := by
  rw [topStep, if_pos hb]

/-- Of the port a busy core sees `rst` alone (R312). -/
theorem topStep_congr_of_busy {p q : PortInput} {s : State} (hb : s.busy = true) (hr : p.rst = q.rst) :
    topStep p s = topStep q s := by
  rw [topStep_of_busy p hb, topStep_of_busy q hb, hr]

/-- Settles O40, from `topStep_congr_of_busy`: the same input goes by in both steps. -/
theorem busyCoreIgnoresPort : Obligations.BusyCoreIgnoresPort :=
  ⟨fun _ => rfl, fun _ _ _ _ hb hr => topStep_congr_of_busy hb hr⟩

end Sys2Proof.Machine
end
